-- ==== Sys2Proof/Word.lean ====
section
/-! DEFINITION. The widths of the machine (00_scope.md R5): bytes, 16-bit words, 32-bit command words. -/

namespace Sys2Proof

/-- `BYTE_BITS = 8`: a byte cell, a memory byte, a port datum (R5). -/
abbrev Byte := BitVec 8

/-- `WORD_BITS = 16`: a pair, SP, PC, an address, a port address (R5). -/
abbrev Word := BitVec 16

/-- `CMD_BITS = 32`: a command word (R5, 30_encoding.md R60). -/
abbrev Cmd := BitVec 32

end Sys2Proof
end

