-- ==== Sys2Proof/Syntax.lean ====
section
/-! DEFINITION. The 22 commands of the block (30_encoding.md R68), with the names they take as operands (R63 to R65). An operand that is
a name is one of a closed set, so a reserved name (R71) cannot be written as an instruction: it exists only as a word, which the
decoder refuses. -/

namespace Sys2Proof

/-- The twelve 8-bit register names, which are also the twelve byte cells (R10, R63). -/
inductive Reg8 where
  | a | f | b | c | d | e | h | l | ixh | ixl | iyh | iyl
  deriving DecidableEq, Repr

/-- The seven 16-bit register names (R12, R64). -/
inductive Reg16 where
  | af | bc | de | hl | ix | iy | sp
  deriving DecidableEq, Repr

/-- The three selectors of the addressing-mode context (R18, R65). -/
inductive Selector where
  | hl | ix | iy
  deriving DecidableEq, Repr

/-- The opcode table's rows, one name each (R68). -/
inductive Opcode where
  | get8 | set8 | get16 | set16
  | setctx | getctx | getind | setind
  | memrd | memwr | fetch8 | fetch16 | push | pop
  | getpc | setpc | portrd | portwr | sethalt | gethalt | addcyc | getcyc
  deriving DecidableEq, Repr

/-- An instruction of the machine: one command with its operands (R68). -/
inductive Instr where
  | get8 (r : Reg8)
  | set8 (r : Reg8) (v : Byte)
  | get16 (rr : Reg16)
  | set16 (rr : Reg16) (v : Word)
  | setctx (s : Selector) (d : Byte)
  | getctx
  | getind
  | setind (v : Byte)
  | memrd (a : Word)
  | memwr (a : Word) (v : Byte)
  | fetch8
  | fetch16
  | push (v : Word)
  | pop
  | getpc
  | setpc (v : Word)
  | portrd (p : Word)
  | portwr (p : Word) (v : Byte)
  | sethalt
  | gethalt
  | addcyc (n : Word)
  | getcyc
  deriving DecidableEq, Repr

/-- The pseudo-command `CLRCTX`, "restore the default context" (R76): another spelling, no constructor of its own. -/
def Instr.clrctx : Instr := .setctx .hl 0

end Sys2Proof
end

