-- ==== Sys2Proof/WellFormed.lean ====
section
/-! DEFINITION. When a command word is a well-formed instance of a command (30_encoding.md R68): the table's match and mask, and the
operand constraint of its last column. Written from the table alone; the decoder (Decode.lean) is written from the formats
(R62) and the procedure (R73), and the two are compared by statements. -/

namespace Sys2Proof

/-- The `match` column of R68. -/
def Opcode.matchBits : Opcode → Cmd
  | .get8 => 0x01000000 | .set8 => 0x02000000 | .get16 => 0x03000000 | .set16 => 0x04000000
  | .setctx => 0x10000000 | .getctx => 0x11000000 | .getind => 0x12000000 | .setind => 0x13000000
  | .memrd => 0x20000000 | .memwr => 0x21000000 | .fetch8 => 0x22000000 | .fetch16 => 0x23000000
  | .push => 0x24000000 | .pop => 0x25000000
  | .getpc => 0x30000000 | .setpc => 0x31000000 | .portrd => 0x32000000 | .portwr => 0x33000000
  | .sethalt => 0x34000000 | .gethalt => 0x35000000 | .addcyc => 0x36000000 | .getcyc => 0x37000000

/-- The `mask` column of R68: the opcode and every must-be-zero field of the format. -/
def Opcode.mask : Opcode → Cmd
  | .get8 => 0xFF00FFFF | .set8 => 0xFF00FF00 | .get16 => 0xFF00FFFF | .set16 => 0xFF000000
  | .setctx => 0xFF00FF00 | .getctx => 0xFFFFFFFF | .getind => 0xFFFFFFFF | .setind => 0xFF00FFFF
  | .memrd => 0xFFFF0000 | .memwr => 0xFF000000 | .fetch8 => 0xFFFFFFFF | .fetch16 => 0xFFFFFFFF
  | .push => 0xFFFF0000 | .pop => 0xFFFFFFFF
  | .getpc => 0xFFFFFFFF | .setpc => 0xFFFF0000 | .portrd => 0xFFFF0000 | .portwr => 0xFF000000
  | .sethalt => 0xFFFFFFFF | .gethalt => 0xFFFFFFFF | .addcyc => 0xFFFF0000 | .getcyc => 0xFFFFFFFF

/-- The `operand constraint` column of R68. The constraint `SVC = 0` of the port commands is "a state condition, not a field". -/
def Opcode.operandOk : Opcode → Cmd → Bool
  | .get8, w | .set8, w => decide ((w.extractLsb' 16 8).toNat ≤ 11)
  | .get16, w | .set16, w => decide ((w.extractLsb' 16 8).toNat ≤ 6)
  | .setctx, w => decide (3 ≤ (w.extractLsb' 0 8).toNat ∧ (w.extractLsb' 0 8).toNat ≤ 5)
  | _, _ => true

/-- The word's opcode field is this row's (R69: a word whose field is no row's has a reserved opcode). -/
def Opcode.isOpcodeOf (o : Opcode) (w : Cmd) : Bool := (w &&& 0xFF000000) == o.matchBits

/-- The must-be-zero fields of this row hold zero in the word (R70): the mask's bits below the opcode. -/
def Opcode.fieldsOk (o : Opcode) (w : Cmd) : Bool := (w &&& (o.mask &&& 0x00FFFFFF)) == 0

/-- The word is a well-formed instance of this row (R68). -/
def Opcode.admits (o : Opcode) (w : Cmd) : Bool := ((w &&& o.mask) == o.matchBits) && o.operandOk w

/-- The rows of R68 in the table's order. -/
def Opcode.all : List Opcode :=
  [.get8, .set8, .get16, .set16, .setctx, .getctx, .getind, .setind, .memrd, .memwr, .fetch8]
    ++ [.fetch16, .push, .pop, .getpc, .setpc, .portrd, .portwr, .sethalt, .gethalt, .addcyc, .getcyc]

/-- The word is one of the 22 commands, well formed (R72: every other word is refused). -/
def wellFormed (w : Cmd) : Bool := Opcode.all.any (·.admits w)

end Sys2Proof
end

