-- ==== Sys2Proof/Decode.lean ====
section
/-! DEFINITION. Decoding (30_encoding.md R60 to R73), total on all words and refusing by cause; the encoder after it, from the same
encoding rules; and `decodeTableWord`. -/

namespace Sys2Proof

/-- The cause codes of `BadCommand` (60_exceptions.md R132). -/
inductive Cause where
  /-- `cmd[31:24]` is not one of the 22 opcodes (R69). -/
  | reservedOpcode
  /-- A must-be-zero field of the format holds a non-zero bit (R70). -/
  | reservedField
  /-- A reserved 8-bit name, 16-bit name or selector (R71). -/
  | reservedName
  /-- A port command arrives while `SVC = 1` (R115); depends on state, so the decoder never gives it. -/
  | portBusy
  deriving DecidableEq, Repr

/-- The code of a cause, the data of its `ERR` response (R132). -/
def Cause.code : Cause → Word
  | .reservedOpcode => 1
  | .reservedField => 2
  | .reservedName => 3
  | .portBusy => 4

/-- Field `op`, bits 31:24 (R60). -/
def opField (w : Cmd) : Byte := w.extractLsb' 24 8

/-- Field `b`, bits 23:16 (R60). -/
def bField (w : Cmd) : Byte := w.extractLsb' 16 8

/-- Field `w`, bits 15:0 (R60). -/
def wField (w : Cmd) : Word := w.extractLsb' 0 16

/-- `w[15:8]`: the high byte of field `w` (R62). -/
def wHigh (w : Cmd) : Byte := w.extractLsb' 8 8

/-- `w[7:0]`: the low byte of field `w` (R62). -/
def wLow (w : Cmd) : Byte := w.extractLsb' 0 8

/-- The eight formats (R62). -/
inductive Format where
  | z | r | rb | rw | b | w | bw | x
  deriving DecidableEq, Repr

/-- The `op` column of R68. -/
def Opcode.code : Opcode → Byte
  | .get8 => 0x01 | .set8 => 0x02 | .get16 => 0x03 | .set16 => 0x04
  | .setctx => 0x10 | .getctx => 0x11 | .getind => 0x12 | .setind => 0x13
  | .memrd => 0x20 | .memwr => 0x21 | .fetch8 => 0x22 | .fetch16 => 0x23 | .push => 0x24 | .pop => 0x25
  | .getpc => 0x30 | .setpc => 0x31 | .portrd => 0x32 | .portwr => 0x33
  | .sethalt => 0x34 | .gethalt => 0x35 | .addcyc => 0x36 | .getcyc => 0x37

/-- The `format` column of R68. -/
def Opcode.format : Opcode → Format
  | .getctx | .getind | .fetch8 | .fetch16 | .pop | .getpc | .sethalt | .gethalt | .getcyc => .z
  | .get8 | .get16 => .r
  | .set8 => .rb
  | .set16 => .rw
  | .setind => .b
  | .memrd | .push | .setpc | .portrd | .addcyc => .w
  | .memwr | .portwr => .bw
  | .setctx => .x

/-- The 8-bit name codes (R63). -/
def Reg8.code : Reg8 → Byte
  | .a => 0 | .f => 1 | .b => 2 | .c => 3 | .d => 4 | .e => 5
  | .h => 6 | .l => 7 | .ixh => 8 | .ixl => 9 | .iyh => 10 | .iyl => 11

/-- The 16-bit name codes (R64). -/
def Reg16.code : Reg16 → Byte
  | .af => 0 | .bc => 1 | .de => 2 | .hl => 3 | .ix => 4 | .iy => 5 | .sp => 6

/-- The selector codes: "the 16-bit name code of the register the context selects" (R65). -/
def Selector.code : Selector → Byte
  | .hl => 3 | .ix => 4 | .iy => 5

/-- The 8-bit name with a code; a code 12 to 255 is reserved (R63, R71). -/
def Reg8.ofCode (c : Byte) : Option Reg8 :=
  [Reg8.a, .f, .b, .c, .d, .e, .h, .l, .ixh, .ixl, .iyh, .iyl].find? (·.code == c)

/-- The 16-bit name with a code; a code 7 to 255 is reserved (R64, R71). -/
def Reg16.ofCode (c : Byte) : Option Reg16 :=
  [Reg16.af, .bc, .de, .hl, .ix, .iy, .sp].find? (·.code == c)

/-- The selector with a code; every code but 3, 4, 5 is reserved (R65, R71). -/
def Selector.ofCode (c : Byte) : Option Selector :=
  [Selector.hl, .ix, .iy].find? (·.code == c)

/-- The command with an opcode; the other 234 values of `op` are reserved (R69). -/
def Opcode.ofCode (c : Byte) : Option Opcode := Opcode.all.find? (·.code == c)

/-- The must-be-zero fields of a format hold zero in a word (R62, R70). -/
def Format.mbzOk : Format → Cmd → Bool
  | .z, cmd => bField cmd == 0 && wField cmd == 0
  | .r, cmd => wField cmd == 0
  | .rb, cmd => wHigh cmd == 0
  | .rw, _ => true
  | .b, cmd => wField cmd == 0
  | .w, cmd => bField cmd == 0
  | .bw, _ => true
  | .x, cmd => wHigh cmd == 0

/-- The command a word with this opcode carries, or none where it carries a reserved name or selector (R62, R71). -/
def Opcode.build : Opcode → Cmd → Option Instr
  | .get8, w => (Reg8.ofCode (bField w)).map .get8
  | .set8, w => (Reg8.ofCode (bField w)).map (.set8 · (wLow w))
  | .get16, w => (Reg16.ofCode (bField w)).map .get16
  | .set16, w => (Reg16.ofCode (bField w)).map (.set16 · (wField w))
  | .setctx, w => (Selector.ofCode (wLow w)).map (.setctx · (bField w))
  | .getctx, _ => some .getctx
  | .getind, _ => some .getind
  | .setind, w => some (.setind (bField w))
  | .memrd, w => some (.memrd (wField w))
  | .memwr, w => some (.memwr (wField w) (bField w))
  | .fetch8, _ => some .fetch8
  | .fetch16, _ => some .fetch16
  | .push, w => some (.push (wField w))
  | .pop, _ => some .pop
  | .getpc, _ => some .getpc
  | .setpc, w => some (.setpc (wField w))
  | .portrd, w => some (.portrd (wField w))
  | .portwr, w => some (.portwr (wField w) (bField w))
  | .sethalt, _ => some .sethalt
  | .gethalt, _ => some .gethalt
  | .addcyc, w => some (.addcyc (wField w))
  | .getcyc, _ => some .getcyc

/-- Steps 1 to 3 of the decoding procedure, in their order (R73): total on all 2^32 words. Step 4 is the port commands' own. -/
def decode (w : Cmd) : Except Cause Instr :=
  match Opcode.ofCode (opField w) with
  | none => .error .reservedOpcode
  | some o =>
    if o.format.mbzOk w then
      match o.build w with
      | none => .error .reservedName
      | some i => .ok i
    else .error .reservedField

/-- The row of the table an instruction stands in. -/
def Instr.opcode : Instr → Opcode
  | .get8 _ => .get8 | .set8 _ _ => .set8 | .get16 _ => .get16 | .set16 _ _ => .set16
  | .setctx _ _ => .setctx | .getctx => .getctx | .getind => .getind | .setind _ => .setind
  | .memrd _ => .memrd | .memwr _ _ => .memwr | .fetch8 => .fetch8 | .fetch16 => .fetch16
  | .push _ => .push | .pop => .pop | .getpc => .getpc | .setpc _ => .setpc
  | .portrd _ => .portrd | .portwr _ _ => .portwr | .sethalt => .sethalt | .gethalt => .gethalt
  | .addcyc _ => .addcyc | .getcyc => .getcyc

/-- What the command's word holds in field `b` (R62, R68). -/
def Instr.bOperand : Instr → Byte
  | .get8 r => r.code
  | .set8 r _ => r.code
  | .get16 rr => rr.code
  | .set16 rr _ => rr.code
  | .setctx _ d => d
  | .setind v => v
  | .memwr _ v => v
  | .portwr _ v => v
  | _ => 0

/-- What the command's word holds in field `w` (R62, R68). -/
def Instr.wOperand : Instr → Word
  | .set8 _ v => v.setWidth 16
  | .set16 _ v => v
  | .setctx s _ => s.code.setWidth 16
  | .memrd a => a
  | .memwr a _ => a
  | .push v => v
  | .setpc v => v
  | .portrd p => p
  | .portwr p _ => p
  | .addcyc n => n
  | _ => 0

/-- The command word of an instruction: the fields `op`, `b`, `w` in their places, `op*0x1000000 + b*0x10000 + w` (R60). -/
def encode (i : Instr) : Cmd :=
  BitVec.ofNat 32 (i.opcode.code.toNat * 0x1000000 + i.bOperand.toNat * 0x10000 + i.wOperand.toNat)

/-- What the decoder reads from an instruction whose bits are `w`, numbered as the table numbers them (bit 0 the least significant bit of
the one 32-bit word); bits from `nbits` on are 0. A command word is a word of the command port, so no byte order enters. -/
def decodeTableWord (nbits w : Nat) : Option Instr :=
  match decode (BitVec.ofNat 32 (w % 2 ^ nbits)) with
  | .ok i => some i
  | .error _ => none

end Sys2Proof
end

