-- ==== Sys2Proof/Config.lean ====
section
/-! DEFINITION. The parameters of the machine and of its environment (00_scope.md R5): what the spec fixes or gives a default,
and, under one opaque constant, what it leaves open. -/

namespace Sys2Proof

/-- `MEM_SIZE` (R5, R22): the number of memory bytes; every 16-bit address is below it. -/
def Config.memSize : Nat := 65536

/-- The default of the open parameter `MEM_RESET_FILL` (R5, R26): `State.reset` takes it (DESIGN CHOICE, unsafe, log 2), while `State.resetWith` takes
any fill as an argument. It is also what an address reads as that the memory list does not name. -/
def Config.memResetFill : Byte := 0x00

/-- The two values of the parameter `DISP_WHEN_HL` (R5, decision D7). -/
inductive DispWhenHL where
  | added
  | ignored
  deriving DecidableEq, Repr

/-- `DISP_WHEN_HL` (R5): whether the displacement takes part when the selector is HL; "this spec: `added`" (log 8). -/
def Config.dispWhenHL : DispWhenHL := .added

/-- The environment's open parameters (R5, R49, decision D20). They are no state of the block (R24). -/
structure EnvParams where
  /-- `CCP_BASE`: where the default command processor is loaded (R162). -/
  ccpBase : Word
  /-- `TPA_BASE`: where a program file is loaded (R163). -/
  tpaBase : Word
  /-- `TPA_STACK`: the value SP holds when the guest starts (R165, decision D17). -/
  tpaStack : Word
  /-- `BDOS_ENTRY`: the BDOS trap address (R139). -/
  bdosEntry : Word
  /-- `BIOS_REGION`: the set of addresses of the BIOS trap (R138). -/
  biosRegion : List Word
  /-- `BIOS_EXIT`: the "designated 'program exit' vector" (R138). -/
  biosExit : Word
  /-- `PARAM_BUF`: the parameter buffer (R164). -/
  paramBuf : Word
  /-- `FCB1`: the first file control block (R164). -/
  fcb1 : Word
  /-- `FCB2`: the second file control block (R164). -/
  fcb2 : Word
  /-- `STACK_PREP_IN_MODE_A`: whether R165 is done in load mode (a). -/
  stackPrepInModeA : Bool
  deriving DecidableEq, Repr, Inhabited

/-- The environment the machine runs in: open, with no value (DESIGN CHOICE, safe, log 9). -/
opaque Config.envParams : EnvParams

/-- `WARM_REENTRY` (R5): "the sentinel return address is zero". -/
def Config.warmReentry : Word := 0x0000

end Sys2Proof
end

