-- ==== Sys2Proof/Machine/State.lean ====
section
/-! DEFINITION. The state of the machine (10_state.md, the whole file), its interface events, faults and refusals, and reset
(R26, R160). -/

namespace Sys2Proof.Machine

/-- The twelve byte cells (R10), each its own storage (R14). A pair has no storage of its own (R11). -/
structure RegFile where
  a : Byte
  f : Byte
  b : Byte
  c : Byte
  d : Byte
  e : Byte
  h : Byte
  l : Byte
  ixh : Byte
  ixl : Byte
  iyh : Byte
  iyl : Byte
  deriving DecidableEq, Repr

/-- The memory (R22): the cells that differ from what an unlisted address reads as (`Config.memResetFill`), by rising address. -/
abbrev Memory := List Host.Cell

/-- `n` memory bytes from address `a` on, each holding `fill`, all listed. -/
def Memory.uniform (fill : Byte) : Nat → Nat → Memory
  | _, 0 => []
  | a, n + 1 => (a, fill) :: Memory.uniform fill (a + 1) n

/-- The whole memory holding `fill` in every byte: the parameter `MEM_RESET_FILL` (R5, R26). In the canonical form nothing is listed for the
fill that unlisted addresses read as, and every address for any other. -/
def Memory.filled (fill : Byte) : Memory :=
  if fill = Config.memResetFill then [] else Memory.uniform fill 0 Config.memSize

/-- The addressing-mode context `CTX` (R18); `d` is an 8-bit two's complement number. -/
structure Ctx where
  sel : Selector
  d : Byte
  deriving DecidableEq, Repr

/-- The default context, `(HL, 0)`: the source's "none" (R18). -/
def Ctx.default : Ctx := ⟨.hl, 0⟩

/-- The direction of a port access (R113, R114). -/
inductive PortDir where
  | read
  | write
  deriving DecidableEq, Repr

/-- A request to the port handler: `port_req(read, p)` (R113) or `port_req(write, p, v)` (R114). -/
inductive PortReq where
  | read (p : Word)
  | write (p : Word) (v : Byte)
  deriving DecidableEq, Repr

/-- The status of a response (R61). -/
inductive Status where
  | ok
  | err
  deriving DecidableEq, Repr

/-- The data of a response: "16 bits for every command except GETCYC, whose data is the whole value of `CYCLE`" (R61). -/
inductive RespData where
  | word (v : Word)
  | count (n : Nat)
  deriving DecidableEq, Repr

/-- A response, `(status, data)` (R61). -/
structure Response where
  status : Status
  data : RespData
  deriving DecidableEq, Repr

/-- What the block sends: a response to the issuer of a command (R61), or a request to the port handler (R113, R114). -/
inductive Output where
  | response (r : Response)
  | portReq (q : PortReq)
  deriving DecidableEq, Repr

/-- The verdict of a service handler (R5: "plus a verdict stop or continue"). -/
inductive Verdict where
  | stop
  | continue
  deriving DecidableEq, Repr

/-- What the outside world does at the block's interface, one thing at a time (R51). DESIGN CHOICE, safe, log 3 and log 10. -/
inductive Event where
  /-- A command word arrives: from the engine or the host while `SVC = 0`, from the port handler while `SVC = 1` (R21). -/
  | command (w : Cmd)
  /-- `port_done(rv)`: the port handler completes a read (R113). -/
  | portDoneRead (rv : Byte)
  /-- `port_done()`: the port handler completes a write (R114). -/
  | portDoneWrite
  /-- The engine has executed exactly one guest instruction (R136 (1)): the dispatcher makes its checks. -/
  | instrDone
  /-- The BIOS or BDOS handler has run to completion (R138, R139, R143). -/
  | serviceDone (v : Verdict)
  deriving DecidableEq, Repr

/-- How a run ended (R144). -/
inductive RunEnd where
  /-- "normal": the BIOS handler reports the program-exit vector (R138). -/
  | programExit
  /-- The BDOS handler's verdict is stop (R5, decision D16); R144 lists no such end. DEDUCED, safe, log 12. -/
  | serviceStop
  /-- "halt": fatal (R137). -/
  | haltAbort
  /-- "runaway": fatal (R140). -/
  | runawayAbort
  deriving DecidableEq, Repr

/-- Where the environment's step loop stands (R136 to R144). -/
inductive Phase where
  /-- The loader, the host or the engine drives the block. -/
  | running
  /-- The BIOS handler drives it; the address it was trapped at (R138). -/
  | bios (vector : Word)
  /-- The BDOS handler drives it (R139). -/
  | bdos
  /-- The loop has ended: no further command is issued (R137, R144). -/
  | ended (e : RunEnd)
  deriving DecidableEq, Repr

/-- The loop has ended. -/
def Phase.isEnded : Phase → Bool
  | .ended _ => true
  | _ => false

/-- The whole state: the block's ("exactly: twelve byte cells, SP, PC, the memory array, CTX, HALTED, CYCLE and SVC. Nothing else",
10_state.md), then the model's own four fields for the interface and the environment (log 3, 4, 5, 13). -/
structure State where
  /-- The byte cells (R10). -/
  regs : RegFile
  /-- `SP` (R15). -/
  sp : Word
  /-- `PC` (R16). -/
  pc : Word
  /-- `MEM` (R22). -/
  mem : Memory
  /-- `CTX` (R18). -/
  ctx : Ctx
  /-- `HALTED` (R19). -/
  halted : Bool
  /-- `CYCLE` (R20). -/
  cycle : Nat
  /-- `SVC` (R21): `none` is 0; `some d` is 1, with the direction of the port command being served, which its completion needs (R113, R114). -/
  svc : Option PortDir
  /-- Model's own: the interface events still to come, first first. -/
  inbox : List Event
  /-- Model's own: what the block has sent, newest first. -/
  outbox : List Output
  /-- Model's own: "a sticky mark that a refusal happened" (U6, D5); the block records nothing (R131). -/
  refused : Bool
  /-- Model's own: where the step loop stands. -/
  phase : Phase
  deriving DecidableEq, Repr

/-- Why a step can stop. No command of the block faults (R130). -/
inductive Fault where
  /-- Raised by the step once the run has ended (R137, R144: "no further command is issued"); the state stays as the end left it. It is
  no fault of the block. Safe: the model goes no further. -/
  | runEnded (e : RunEnd)
  deriving DecidableEq, Repr

/-- Why a step gives no meaning. -/
inductive Refusal where
  /-- Raised by `exec` for an instruction that has no meaning yet, by its mnemonic. Safe. -/
  | notModelled (mnemonic : String)
  /-- Raised by the interface for a `port_done` when no port command of that direction is being served: the protocol of R113 to R115 has
  no such event. Safe (log 7). -/
  | strayPortDone
  /-- Raised by the interface when the engine says an instruction is complete while a port command is pending or a service handler
  runs: R51 and R143 exclude it. Safe (log 7). -/
  | strayInstrDone
  /-- Raised by the interface for a service handler's verdict when none runs, or while its own port command is pending: R138, R139 and R51
  exclude it. Safe (log 7). -/
  | strayServiceDone
  deriving DecidableEq, Repr

/-- Reset with a given value of the open parameters `MEM_RESET_FILL` and `RESET_REGS` (R5, R26, R160, R161): "a claim must hold for every
assignment". -/
def State.resetWith (fill : Byte) (regs : RegFile) (sp pc : Word) : State where
  regs := regs
  sp := sp
  pc := pc
  mem := Memory.filled fill
  ctx := Ctx.default
  halted := false
  cycle := 0
  svc := none
  inbox := []
  outbox := []
  refused := false
  phase := .running

/-- All byte cells zero. DESIGN CHOICE (unsafe, log 1): the spec leaves the reset values open (U1). -/
def RegFile.zero : RegFile := ⟨0, 0, 0, 0, 0, 0, 0, 0, 0, 0, 0, 0⟩

/-- The machine right after reset (R26), with the default fill (DESIGN CHOICE, unsafe, log 2) and zero for `RESET_REGS` (DESIGN CHOICE, unsafe,
log 1). -/
def State.reset : State := State.resetWith Config.memResetFill RegFile.zero 0 0

end Sys2Proof.Machine
end

