-- ==== Sys2Proof/Machine/Ops.lean ====
section
/-! DEFINITION. The named operations over registers and memory, the responses, the one exception of the block (`BadCommand`) and the
environment's simulated return (00_scope.md R6, R7; 20_memory.md; 42_memory_fetch_stack.md; 60_exceptions.md). -/

namespace Sys2Proof.Machine

/-! ## Bits (R6) -/

/-- `hi8(v) = v[15:8]`. -/
def hi8 (v : Word) : Byte := v.extractLsb' 8 8

/-- `lo8(v) = v[7:0]`. -/
def lo8 (v : Word) : Byte := v.extractLsb' 0 8

/-- `{hi, lo}`, that is `high*256 + low` (R6, R11). -/
def pairWord (hi lo : Byte) : Word := BitVec.ofNat 16 (hi.toNat * 256 + lo.toNat)

/-- `zext_16`. -/
def zext16 (v : Byte) : Word := v.setWidth 16

/-- `sext_16`. -/
def sext16 (v : Byte) : Word := v.signExtend 16

/-! ## Byte cells (R7: `R8[n]`, `R8[n] <- v`) -/

/-- Raw read of a byte cell, "with no aliasing". -/
def RegFile.get (g : RegFile) : Reg8 → Byte
  | .a => g.a | .f => g.f | .b => g.b | .c => g.c | .d => g.d | .e => g.e
  | .h => g.h | .l => g.l | .ixh => g.ixh | .ixl => g.ixl | .iyh => g.iyh | .iyl => g.iyl

/-- Raw write of a byte cell: it changes that cell "and nothing else in the register file" (R14). -/
def RegFile.set (g : RegFile) (n : Reg8) (v : Byte) : RegFile :=
  match n with
  | .a => { g with a := v } | .f => { g with f := v } | .b => { g with b := v } | .c => { g with c := v }
  | .d => { g with d := v } | .e => { g with e := v } | .h => { g with h := v } | .l => { g with l := v }
  | .ixh => { g with ixh := v } | .ixl => { g with ixl := v } | .iyh => { g with iyh := v } | .iyl => { g with iyl := v }

/-- `R8[n]`. -/
def State.readR8 (s : State) (n : Reg8) : Byte := s.regs.get n

/-- `R8[n] <- v`. -/
def State.writeR8 (s : State) (n : Reg8) (v : Byte) : State := { s with regs := s.regs.set n v }

/-! ## 16-bit names (R12, R13) -/

/-- The two cells of a pair, high half first; none for SP, which "has no byte cells" (R12). -/
def Reg16.halves : Reg16 → Option (Reg8 × Reg8)
  | .af => some (.a, .f)
  | .bc => some (.b, .c)
  | .de => some (.d, .e)
  | .hl => some (.h, .l)
  | .ix => some (.ixh, .ixl)
  | .iy => some (.iyh, .iyl)
  | .sp => none

/-- `R16[m]` (R13). -/
def State.readR16 (s : State) (m : Reg16) : Word :=
  match Reg16.halves m with
  | some (hi, lo) => pairWord (s.readR8 hi) (s.readR8 lo)
  | none => s.sp

/-- `R16[m] <- v` (R13). -/
def State.writeR16 (s : State) (m : Reg16) (v : Word) : State :=
  match Reg16.halves m with
  | some (hi, lo) => (s.writeR8 hi (hi8 v)).writeR8 lo (lo8 v)
  | none => { s with sp := v }

/-! ## Memory (R22, R40 to R42) -/

/-- The byte at an address; an unlisted address reads as `Config.memResetFill`. -/
def Memory.read : Memory → Nat → Byte
  | [], _ => Config.memResetFill
  | (k, v) :: m, a => if k = a then v else Memory.read m a

/-- List a byte at its place among the rising addresses, in place of one already there. -/
def Memory.place (a : Nat) (v : Byte) : Memory → Memory
  | [] => [(a, v)]
  | (k, w) :: m =>
    if a < k then (a, v) :: (k, w) :: m
    else if a = k then (a, v) :: m
    else (k, w) :: Memory.place a v m

/-- Store a byte and keep the canonical form: the fill is not listed. -/
def Memory.write (m : Memory) (a : Nat) (v : Byte) : Memory :=
  if v = Config.memResetFill then m.filter (fun c => c.1 != a) else Memory.place a v m

/-- The canonical form from an address on: addresses strictly rising and inside the memory, no byte equal to the fill. -/
def Memory.wfFrom : Nat → Memory → Bool
  | _, [] => true
  | lo, (k, v) :: m =>
    decide (lo ≤ k) && decide (k < Config.memSize) && (v != Config.memResetFill) && Memory.wfFrom (k + 1) m

/-- The canonical form. -/
def Memory.wf (m : Memory) : Bool := Memory.wfFrom 0 m

/-- `MemRead(a, 1)` (R42). -/
def State.readByte (s : State) (a : Word) : Byte := Memory.read s.mem a.toNat

/-- `MemWrite(a, 1, v)` (R42). -/
def State.writeByte (s : State) (a : Word) (v : Byte) : State := { s with mem := Memory.write s.mem a.toNat v }

/-! ## Fetch and stack primitives (42_memory_fetch_stack.md) -/

/-- Read the byte at PC and advance PC by one (R102). -/
def State.fetchByte (s : State) : Byte × State := (s.readByte s.pc, { s with pc := s.pc + 1 })

/-- Two bytes from the instruction stream, low byte first; each advance wraps on its own (R103). -/
def State.fetchWord (s : State) : Word × State :=
  let lo := s.fetchByte
  let hi := lo.2.fetchByte
  (pairWord hi.1 lo.1, hi.2)

/-- Decrement SP, then store a byte there (R104, one half of it). -/
def State.pushByte (s : State) (v : Byte) : State :=
  let s₁ := { s with sp := s.sp - 1 }
  s₁.writeByte s₁.sp v

/-- High byte first, so that the low byte lies at the lower address (R104). -/
def State.pushWord (s : State) (v : Word) : State := (s.pushByte (hi8 v)).pushByte (lo8 v)

/-- Read the byte at SP, then increment SP (R105, one half of it). -/
def State.popByte (s : State) : Byte × State := (s.readByte s.sp, { s with sp := s.sp + 1 })

/-- Low byte, then high byte (R105). -/
def State.popWord (s : State) : Word × State :=
  let lo := s.popByte
  let hi := lo.2.popByte
  (pairWord hi.1 lo.1, hi.2)

/-! ## Plain writes of one field -/

/-- `pc <- v` (R7). -/
def State.setPc (s : State) (v : Word) : State := { s with pc := v }

/-- Move the environment's step loop (model's own, log 13). -/
def State.setPhase (s : State) (ph : Phase) : State := { s with phase := ph }

/-! ## Responses (R61) and the one exception (R131) -/

/-- The encoding of a status: "`OK` (encoded 0) or `ERR` (encoded 1)" (R61). -/
def Status.code : Status → Nat
  | .ok => 0
  | .err => 1

/-- Send an output. -/
def State.send (s : State) (o : Output) : State := { s with outbox := o :: s.outbox }

/-- `respond(OK, data)` with a 16-bit data (R61). -/
def State.ok (s : State) (v : Word) : State := s.send (.response ⟨.ok, .word v⟩)

/-- `respond(OK, CYCLE)`, the one response wider than 16 bits (R61, R120). -/
def State.okCount (s : State) (n : Nat) : State := s.send (.response ⟨.ok, .count n⟩)

/-- `raise BadCommand(code)` (R131): no state of the block changes, no request goes to the port handler, the response is `(ERR, code)`.
The block saves nothing and is ready for the next command, so there is nothing to return from. The mark `refused` is the model's
own (log 5). -/
def State.badCommand (s : State) (c : Cause) : State :=
  { s with refused := true, outbox := .response ⟨.err, .word c.code⟩ :: s.outbox }

/-! ## The return from a trap (R139, R142) -/

/-- The simulated return, `POP -> t` then `SETPC t`, with the responses of the two commands (R112 (a), R139, R142). -/
def State.simulatedReturn (s : State) : State :=
  ((s.popWord.2.ok s.popWord.1).setPc s.popWord.1).ok 0

end Sys2Proof.Machine
end

