-- ==== Sys2Proof/Machine/Operands.lean ====
section
/-! DEFINITION. The addressing-mode resolver (41_addressing_context.md R90 to R92) and the access functions over an EXPLICIT context, as R98
allows a model to write them; each command applies them to the stored `CTX`. -/

namespace Sys2Proof.Machine

/-- `Tr8`: the cell an 8-bit name resolves to (R90). -/
def tr8 : Selector → Reg8 → Reg8
  | .ix, .h => .ixh
  | .ix, .l => .ixl
  | .iy, .h => .iyh
  | .iy, .l => .iyl
  | _, n => n

/-- The 16-bit name whose code is the selector's code (R65). -/
def selReg : Selector → Reg16
  | .hl => .hl
  | .ix => .ix
  | .iy => .iy

/-- `Tr16`: the register a 16-bit name resolves to (R91). -/
def tr16 : Selector → Reg16 → Reg16
  | c, .hl => selReg c
  | _, m => m

/-- The displacement that takes part in the effective address: always `CTX.d` as this spec has it; the parameter `DISP_WHEN_HL` names the
other reading for the selector HL (R92, decision D7, log 8). -/
def effDisp (c : Ctx) : Byte :=
  match Config.dispWhenHL, c.sel with
  | .ignored, .hl => 0
  | _, _ => c.d

/-- `EA()`: the effective address of the indirect pseudo-register; the sum wraps modulo 65536 (R92). -/
def ea (c : Ctx) (s : State) : Word := s.readR16 (selReg c.sel) + sext16 (effDisp c)

/-- Read an 8-bit register by name under a context (R80, R98). -/
def getReg8 (c : Ctx) (s : State) (r : Reg8) : Byte := s.readR8 (tr8 c.sel r)

/-- Write an 8-bit register by name under a context (R81, R98). -/
def setReg8 (c : Ctx) (s : State) (r : Reg8) (v : Byte) : State := s.writeR8 (tr8 c.sel r) v

/-- Read a 16-bit register by name under a context (R82, R98). -/
def getReg16 (c : Ctx) (s : State) (rr : Reg16) : Word := s.readR16 (tr16 c.sel rr)

/-- Write a 16-bit register by name under a context (R83, R98). -/
def setReg16 (c : Ctx) (s : State) (rr : Reg16) (v : Word) : State := s.writeR16 (tr16 c.sel rr) v

/-- Read the indirect pseudo-register under a context (R95, R98). -/
def getIndirect (c : Ctx) (s : State) : Byte := s.readByte (ea c s)

/-- Write the indirect pseudo-register under a context (R96, R98). -/
def setIndirect (c : Ctx) (s : State) (v : Byte) : State := s.writeByte (ea c s) v

/-- The context as GETCTX returns it: the displacement byte above the selector code (R94). -/
def ctxWord (c : Ctx) : Word := pairWord c.d c.sel.code

end Sys2Proof.Machine
end

