-- ==== Sys2Proof/Machine/Context.lean ====
section
/-! DEFINITION. The commands of the addressing-mode context (41_addressing_context.md). -/

namespace Sys2Proof.Machine

/-- `SETCTX s, d` (R93): both fields at once. -/
def execSetctx (sel : Selector) (d : Byte) (s : State) : Host.Outcome State Fault Refusal :=
  .next (({ s with ctx := ⟨sel, d⟩ } : State).ok 0)

/-- `GETCTX` (R94). -/
def execGetctx (s : State) : Host.Outcome State Fault Refusal :=
  .next (s.ok (ctxWord s.ctx))

/-- `GETIND` (R95). -/
def execGetind (s : State) : Host.Outcome State Fault Refusal :=
  .next (s.ok (zext16 (getIndirect s.ctx s)))

/-- `SETIND v` (R96). -/
def execSetind (v : Byte) (s : State) : Host.Outcome State Fault Refusal :=
  .next ((setIndirect s.ctx s v).ok 0)

end Sys2Proof.Machine
end

