-- ==== Sys2Proof/Machine/MemoryStack.lean ====
section
/-! DEFINITION. The memory, fetch and stack commands (42_memory_fetch_stack.md). None of them reads or writes the context. -/

namespace Sys2Proof.Machine

/-- `MEMRD a` (R100). -/
def execMemrd (a : Word) (s : State) : Host.Outcome State Fault Refusal :=
  .next (s.ok (zext16 (s.readByte a)))

/-- `MEMWR a, v` (R101). -/
def execMemwr (a : Word) (v : Byte) (s : State) : Host.Outcome State Fault Refusal :=
  .next ((s.writeByte a v).ok 0)

/-- `FETCH8` (R102). -/
def execFetch8 (s : State) : Host.Outcome State Fault Refusal :=
  .next (s.fetchByte.2.ok (zext16 s.fetchByte.1))

/-- `FETCH16` (R103). -/
def execFetch16 (s : State) : Host.Outcome State Fault Refusal :=
  .next (s.fetchWord.2.ok s.fetchWord.1)

/-- `PUSH v` (R104). -/
def execPush (v : Word) (s : State) : Host.Outcome State Fault Refusal :=
  .next ((s.pushWord v).ok 0)

/-- `POP` (R105). -/
def execPop (s : State) : Host.Outcome State Fault Refusal :=
  .next (s.popWord.2.ok s.popWord.1)

end Sys2Proof.Machine
end

