-- ==== Sys2Proof/Machine/Registers.lean ====
section
/-! DEFINITION. The register access commands (40_register_access.md). Each resolves its name through the stored context. -/

namespace Sys2Proof.Machine

/-- `GET8 r` (R80). -/
def execGet8 (r : Reg8) (s : State) : Host.Outcome State Fault Refusal :=
  .next (s.ok (zext16 (getReg8 s.ctx s r)))

/-- `SET8 r, v` (R81). -/
def execSet8 (r : Reg8) (v : Byte) (s : State) : Host.Outcome State Fault Refusal :=
  .next ((setReg8 s.ctx s r v).ok 0)

/-- `GET16 rr` (R82). -/
def execGet16 (rr : Reg16) (s : State) : Host.Outcome State Fault Refusal :=
  .next (s.ok (getReg16 s.ctx s rr))

/-- `SET16 rr, v` (R83). -/
def execSet16 (rr : Reg16) (v : Word) (s : State) : Host.Outcome State Fault Refusal :=
  .next ((setReg16 s.ctx s rr v).ok 0)

end Sys2Proof.Machine
end

