-- ==== Sys2Proof/Machine/Flags.lean ====
section
/-! DEFINITION. The flags byte (10_state.md R17) and the one-bit flag the block answers with (R118). The block computes no flag: F is eight
opaque bits of storage, cell 1 of the register file, with no bit reserved or forced (U16). -/

namespace Sys2Proof.Machine

/-- The flags byte F (R17). -/
def State.flags (s : State) : Byte := s.readR8 .f

/-- `zext_16(HALTED)`: 0x0000 or 0x0001 (R118). -/
def haltedWord (h : Bool) : Word := if h then 1 else 0

end Sys2Proof.Machine
end

