-- ==== Sys2Proof/Machine/System.lean ====
section
/-! DEFINITION. The program counter, port, halted-flag and cycle-counter commands (43_control_port_system.md), and the completion of a port
command by the port handler. -/

namespace Sys2Proof.Machine

/-- `GETPC` (R110). -/
def execGetpc (s : State) : Host.Outcome State Fault Refusal :=
  .next (s.ok s.pc)

/-- `SETPC v` (R111). -/
def execSetpc (v : Word) (s : State) : Host.Outcome State Fault Refusal :=
  .next ((s.setPc v).ok 0)

/-- Open the service window and send the request to the port handler, or refuse with cause 4 while one is open (R113 to R115, R73 step 4). -/
def State.openWindow (s : State) (d : PortDir) (q : PortReq) : State :=
  match s.svc with
  | some _ => s.badCommand .portBusy
  | none => ({ s with svc := some d } : State).send (.portReq q)

/-- `PORTRD p` up to its request (R113); what the handler then does are the events that follow, and `portDoneRead` ends it (log 6). -/
def execPortrd (p : Word) (s : State) : Host.Outcome State Fault Refusal :=
  .next (s.openWindow .read (.read p))

/-- `PORTWR p, v` up to its request (R114); "the block keeps no copy of `v`". `portDoneWrite` ends it (log 6). -/
def execPortwr (p : Word) (v : Byte) (s : State) : Host.Outcome State Fault Refusal :=
  .next (s.openWindow .write (.write p v))

/-- `port_done(rv)`: SVC becomes 0 and the pending PORTRD responds with the handler's byte (R113). -/
def portDoneRead (rv : Byte) (s : State) : Host.Outcome State Fault Refusal :=
  match s.svc with
  | some .read => .next (({ s with svc := none } : State).ok (zext16 rv))
  | _ => .refused .strayPortDone

/-- `port_done()`: SVC becomes 0 and the pending PORTWR responds (R114). -/
def portDoneWrite (s : State) : Host.Outcome State Fault Refusal :=
  match s.svc with
  | some .write => .next (({ s with svc := none } : State).ok 0)
  | _ => .refused .strayPortDone

/-- `SETHALT` (R117): there is no command that clears the flag. -/
def execSethalt (s : State) : Host.Outcome State Fault Refusal :=
  .next (({ s with halted := true } : State).ok 0)

/-- `GETHALT` (R118). -/
def execGethalt (s : State) : Host.Outcome State Fault Refusal :=
  .next (s.ok (haltedWord s.halted))

/-- `ADDCYC n` (R119): natural numbers, no wrap. -/
def execAddcyc (n : Word) (s : State) : Host.Outcome State Fault Refusal :=
  .next (({ s with cycle := s.cycle + n.toNat } : State).ok 0)

/-- `GETCYC` (R120). -/
def execGetcyc (s : State) : Host.Outcome State Fault Refusal :=
  .next (s.okCount s.cycle)

end Sys2Proof.Machine
end

