-- ==== Sys2Proof/Machine/Dispatch.lean ====
section
/-! DEFINITION. One arm per instruction (30_encoding.md R68). -/

namespace Sys2Proof.Machine

def exec (i : Instr) (s : State) : Host.Outcome State Fault Refusal :=
  match i with
  -- 40_register_access.md
  | .get8 r => Sys2Proof.Machine.execGet8 r s
  | .set8 r v => Sys2Proof.Machine.execSet8 r v s
  | .get16 rr => Sys2Proof.Machine.execGet16 rr s
  | .set16 rr v => Sys2Proof.Machine.execSet16 rr v s
  -- 41_addressing_context.md
  | .setctx sel d => Sys2Proof.Machine.execSetctx sel d s
  | .getctx => Sys2Proof.Machine.execGetctx s
  | .getind => Sys2Proof.Machine.execGetind s
  | .setind v => Sys2Proof.Machine.execSetind v s
  -- 42_memory_fetch_stack.md
  | .memrd a => Sys2Proof.Machine.execMemrd a s
  | .memwr a v => Sys2Proof.Machine.execMemwr a v s
  | .fetch8 => Sys2Proof.Machine.execFetch8 s
  | .fetch16 => Sys2Proof.Machine.execFetch16 s
  | .push v => Sys2Proof.Machine.execPush v s
  | .pop => Sys2Proof.Machine.execPop s
  -- 43_control_port_system.md
  | .getpc => Sys2Proof.Machine.execGetpc s
  | .setpc v => Sys2Proof.Machine.execSetpc v s
  | .portrd p => Sys2Proof.Machine.execPortrd p s
  | .portwr p v => Sys2Proof.Machine.execPortwr p v s
  | .sethalt => Sys2Proof.Machine.execSethalt s
  | .gethalt => Sys2Proof.Machine.execGethalt s
  | .addcyc n => Sys2Proof.Machine.execAddcyc n s
  | .getcyc => Sys2Proof.Machine.execGetcyc s

end Sys2Proof.Machine
end

