-- ==== Sys2Proof/Machine/Environment.lean ====
section
/-! DEFINITION. What stands around the block: the command port (30_encoding.md R73), sequences of commands, the dispatcher's checks and the
end of a run (60_exceptions.md R135 to R144), and the loader (70_reset_and_hazards.md R162 to R167). The environment's
open addresses are an argument of every definition that uses one. -/

namespace Sys2Proof.Machine

/-! ## The command port and sequences of commands -/

/-- A command word arrives: decode it, then perform the command or refuse the word with no effect (R73, R131). -/
def receiveWord (w : Cmd) (s : State) : Host.Outcome State Fault Refusal :=
  match decode w with
  | .ok i => exec i s
  | .error c => .next (s.badCommand c)

/-- A sequence of command words, each performed and answered before the next (R51). -/
def receiveWords : List Cmd → State → Host.Outcome State Fault Refusal
  | [], s => .next s
  | w :: ws, s =>
    match receiveWord w s with
    | .next t => receiveWords ws t
    | .fault r => .fault r
    | .refused r => .refused r

/-- A sequence of commands, each performed before the next (R51). -/
def performAll : List Instr → State → Host.Outcome State Fault Refusal
  | [], s => .next s
  | i :: is, s =>
    match exec i s with
    | .next t => performAll is t
    | .fault r => .fault r
    | .refused r => .refused r

/-! ## The dispatcher (environment rules) -/

/-- The checks after a guest instruction, in the order of R135, the first match acting: the halted flag (R137), the BIOS region (R138), the
BDOS entry (R139), the runaway guard (R140). The two reads are the commands GETHALT and GETPC, and their responses are sent (log 10).
A trap saves nothing and changes nothing in the block (R141). -/
def dispatchChecks (p : EnvParams) (s : State) : State :=
  let s₁ := s.ok (haltedWord s.halted)
  if s.halted then s₁.setPhase (.ended .haltAbort)
  else
    let s₂ := s₁.ok s.pc
    if s.pc ∈ p.biosRegion then s₂.setPhase (.bios s.pc)
    else if s.pc = p.bdosEntry then s₂.setPhase .bdos
    else if s.pc = p.bdosEntry - 1 then s₂.setPhase (.ended .runawayAbort)
    else s₂

/-- The engine says that exactly one guest instruction is complete (R136). -/
def instrDone (p : EnvParams) (s : State) : Host.Outcome State Fault Refusal :=
  match s.svc, s.phase with
  | none, .running => .next (dispatchChecks p s)
  | _, _ => .refused .strayInstrDone

/-- A service handler has run to completion. BIOS: a true result ends the loop normally; else the loop goes on, the handler's own commands having
resumed the guest (R138). BDOS: the caller is resumed by the simulated return (R139), unless the verdict is stop (log 12). -/
def serviceDone (v : Verdict) (s : State) : Host.Outcome State Fault Refusal :=
  match s.svc, s.phase with
  | none, .bios _ =>
    match v with
    | .stop => .next (s.setPhase (.ended .programExit))
    | .continue => .next (s.setPhase .running)
  | none, .bdos =>
    match v with
    | .stop => .next (s.setPhase (.ended .serviceStop))
    | .continue => .next (s.simulatedReturn.setPhase .running)
  | _, _ => .refused .strayServiceDone

/-- One event at the interface. -/
def handleEvent (p : EnvParams) (e : Event) (s : State) : Host.Outcome State Fault Refusal :=
  match e with
  | .command w => receiveWord w s
  | .portDoneRead rv => portDoneRead rv s
  | .portDoneWrite => portDoneWrite s
  | .instrDone => instrDone p s
  | .serviceDone v => serviceDone v s

/-- One step of the machine: nothing more once the run has ended (R137, R144); else the next event. The block takes no step of its own (R8.1), so
with no event to come nothing changes (log 3). -/
def receive (p : EnvParams) (s : State) : Host.Outcome State Fault Refusal :=
  match s.phase with
  | .ended e => .fault (.runEnded e)
  | _ =>
    match s.inbox with
    | [] => .next s
    | e :: rest => handleEvent p e { s with inbox := rest }

/-- Put a command word where the next step takes its event, and let the loop run where it had ended. -/
def State.placeWord (s : State) (w : Cmd) : State :=
  { s with inbox := .command w :: s.inbox, phase := if s.phase.isEnded then .running else s.phase }

/-! ## The loader (environment rules) -/

/-- The two load modes, "mutually exclusive" (R162, R163). -/
inductive LoadMode where
  /-- Mode (a): no program named; the bundled command-processor image, whose bytes are open (U14). -/
  | commandProcessor (image : List Byte)
  /-- Mode (b): a program file, its raw bytes. -/
  | transient (file : List Byte)
  deriving DecidableEq, Repr

/-- What the loader is asked to do: the mode and, given a command tail, its characters and the bytes of the two file control blocks, whose
layout is outside the spec (R164, R4). -/
structure LoadRequest where
  mode : LoadMode
  tail : Option (List Byte)
  fcb1Bytes : List Byte
  fcb2Bytes : List Byte
  deriving DecidableEq, Repr

/-- One MEMWR per byte, at ascending addresses (R101, R162). -/
def writeBytes : Word → List Byte → List Instr
  | _, [] => []
  | a, v :: vs => .memwr a v :: writeBytes (a + 1) vs

/-- "the load address" of a mode (R162, R163). -/
def loadAddress (p : EnvParams) : LoadMode → Word
  | .commandProcessor _ => p.ccpBase
  | .transient _ => p.tpaBase

/-- The image's bytes; a file is "truncated silently" at the transient-program capacity, 65536 minus the base address (R163). -/
def loadedBytes (p : EnvParams) : LoadMode → List Byte
  | .commandProcessor image => image
  | .transient file => file.take (Config.memSize - p.tpaBase.toNat)

/-- Parameter marshalling: "a count byte capped at 126, then the characters at the following addresses", and the two file control blocks
(R164, log 14). -/
def marshalCommands (p : EnvParams) (q : LoadRequest) : List Instr :=
  match q.tail with
  | none => []
  | some tail =>
    writeBytes p.paramBuf (BitVec.ofNat 8 (min tail.length 126) :: tail.take 126)
      ++ writeBytes p.fcb1 q.fcb1Bytes ++ writeBytes p.fcb2 q.fcb2Bytes

/-- Stack preparation: the zero sentinel at `TPA_STACK` and SP pointing at it (R165). -/
def stackPrepCommands (p : EnvParams) : List Instr :=
  [.memwr p.tpaStack 0, .memwr (p.tpaStack + 1) 0, .set16 .sp p.tpaStack]

/-- Whether the sentinel stack is prepared: always for a transient program, by `STACK_PREP_IN_MODE_A` in mode (a) (R165). -/
def stackPrepared (p : EnvParams) : LoadMode → Bool
  | .commandProcessor _ => p.stackPrepInModeA
  | .transient _ => true

/-- All the loader does, in the source's order: image, parameters, stack, PC (R167). -/
def loaderCommands (p : EnvParams) (q : LoadRequest) : List Instr :=
  writeBytes (loadAddress p q.mode) (loadedBytes p q.mode) ++ marshalCommands p q
    ++ (if stackPrepared p q.mode then stackPrepCommands p else []) ++ [.setpc (loadAddress p q.mode)]

/-- The loader's commands stand before everything else that is to come: how a program comes to run from reset (log 3, log 14). -/
def State.withLoader (s : State) (p : EnvParams) (q : LoadRequest) : State :=
  { s with inbox := (loaderCommands p q).map (fun i => .command (encode i)) ++ s.inbox }

end Sys2Proof.Machine
end

