-- ==== Sys2Proof/Machine/Step.lean ====
section
/-! DEFINITION. The step of the machine: one interface event (20_memory.md R51, 30_encoding.md R73), in the environment whose open
addresses `Config.envParams` holds. -/

namespace Sys2Proof.Machine

/-- One step. -/
def step (s : State) : Host.Outcome State Fault Refusal := receive Config.envParams s

/-- `s` with the instruction of the table's bits `w` placed as the next event: command words come from outside, so this stands for their issuer
(log 3). -/
def State.withFetchWord (s : State) (nbits w : Nat) : State :=
  s.placeWord (BitVec.ofNat 32 (w % 2 ^ nbits))

end Sys2Proof.Machine
end

