-- ==== Sys2Proof/Safety.lean ====
section
/-! DEFINITION. What claims are stated in: the machine's invariant, what counts as a safe run, and the discipline the spec asks of the
driving engine (70_reset_and_hazards.md R170 to R173), as predicates. The machine assumes none of them. -/

namespace Sys2Proof.Machine

/-- The invariant every step keeps: the memory is in its canonical form, and a run that has ended has no service window open (R51: the
dispatcher and the service handlers act only between commands). -/
def State.Inv (s : State) : Prop :=
  s.mem.wf = true ∧ (s.phase.isEnded = true → s.svc = none)

/-- Two states hold the same block, whatever the interface has seen: cells, SP, PC, every byte of memory, CTX, HALTED, CYCLE, SVC. -/
def State.SameBlock (s t : State) : Prop :=
  t.regs = s.regs ∧ t.sp = s.sp ∧ t.pc = s.pc ∧ (∀ a, t.readByte a = s.readByte a) ∧ t.ctx = s.ctx ∧
    t.halted = s.halted ∧ t.cycle = s.cycle ∧ t.svc = s.svc

/-- No command word was refused, and the run has not ended in one of the fatal ends (R131, R144). -/
def State.Safe (s : State) : Prop :=
  s.refused = false ∧ s.phase ≠ .ended .haltAbort ∧ s.phase ≠ .ended .runawayAbort

/-- "The context is the default between instructions" (R171), the named invariant of the engine. -/
def State.CtxDefault (s : State) : Prop := s.ctx = Ctx.default

/-- The context a sequence of commands leaves behind, when it starts with `c`: the last SETCTX decides (R93). -/
def ctxAfter (c : Ctx) (is : List Instr) : Ctx :=
  is.foldl (fun c i => match i with | .setctx sel d => ⟨sel, d⟩ | _ => c) c

/-- The engine's obligation for one guest instruction: it leaves the default context behind when it finds it (R171). -/
def RestoresContext (is : List Instr) : Prop := ctxAfter Ctx.default is = Ctx.default

/-- The engine's obligation for one command: "use `d = 0` with selector HL" (R173). -/
def NoStaleDisp : Instr → Prop
  | .setctx .hl d => d = 0
  | _ => True

/-- The state R173 warns of is not there: under the selector HL the displacement is zero. -/
def State.DispClear (s : State) : Prop := s.ctx.sel = .hl → s.ctx.d = 0

/-- An honest BIOS handler: it reports a program exit exactly for the designated vector (R138). -/
def BiosReportHonest (p : EnvParams) (vector : Word) (v : Verdict) : Prop := v = .stop ↔ vector = p.biosExit

/-- A command that R84's sequences are made of while an index context is active. -/
def IndexSessionCommand : Instr → Prop
  | .get8 _ | .set8 _ _ | .get16 _ | .set16 _ _ => True
  | .setctx sel _ => sel ≠ .hl
  | _ => False

/-! ## The words claims are written in -/

/-- The command word with a number. -/
def cmdWord (n : Nat) : Cmd := BitVec.ofNat 32 n

/-- The response `OK v` (R61). -/
def okReply (v : Word) : Output := .response ⟨.ok, .word v⟩

/-- The response `ERR n` (R61, R132). -/
def errReply (n : Word) : Output := .response ⟨.err, .word n⟩

/-- The number `high*256 + low` (R11). -/
def composed (hi lo : Byte) : Word := BitVec.ofNat 16 (hi.toNat * 256 + lo.toNat)

/-- What the memory reads as, once `bytes` have been written from `base` on over a memory that read as `f`: the later write wins (U17). -/
def overlay (base : Word) (bytes : List Byte) (f : Word → Byte) (a : Word) : Byte :=
  (bytes[(a - base).toNat]?).getD (f a)

/-- The parameter buffer of R164: "a count byte capped at 126, then the characters"; of a longer tail the first 126 (log 14). -/
def parameterBytes (tail : List Byte) : List Byte := BitVec.ofNat 8 (min tail.length 126) :: tail.take 126

/-- The effective address of R92, as a number: the selected register plus the signed displacement, modulo 65536. -/
def IsEffectiveAddress (s : State) (a : Word) : Prop :=
  (a.toNat : Int) = ((s.readR16 (selReg s.ctx.sel)).toNat + s.ctx.d.toInt) % 65536

/-- Every word of an opcode with a non-zero bit among `mbz` is refused with cause 2 (R70). -/
def FieldRefusals (op : Byte) (mbz : Cmd) : Prop :=
  ∀ w : Cmd, w.extractLsb' 24 8 = op → w &&& mbz ≠ 0 → decode w = .error .reservedField

/-- Every word of an opcode whose must-be-zero bits are zero and whose name is reserved is refused with cause 3 (R71). -/
def NameRefusals (op : Byte) (mbz : Cmd) (reserved : Cmd → Prop) : Prop :=
  ∀ w : Cmd, w.extractLsb' 24 8 = op → w &&& mbz = 0 → reserved w → decode w = .error .reservedName

/-- The block's port commands. -/
def IsPort : Instr → Prop
  | .portrd _ | .portwr _ _ => True
  | _ => False

end Sys2Proof.Machine
end

