-- ==== Sys2Proof/Certificates/Slice0/Obligations.lean ====
section
/-! DEFINITION. The statements for the provers. Each docstring names the rules of spec/ it formalises; a clause that rests on a choice of the
model says so and names the log entry. -/

open Sys2Proof Sys2Proof.Machine

/-! ## The command port -/

/-- The next event is a word that decodes to `i`: the step performs `i` on the state without that event (R73 step 5, R51). -/
def Obligations.StepPerformsDecodedCommand : Prop :=
  ∀ (s : State) (w : Cmd) (rest : List Event) (i : Instr),
    s.phase.isEnded = false → s.inbox = .command w :: rest → decode w = .ok i → step s = exec i { s with inbox := rest }

/-- A refused word, whether the decoder refuses it or a port command finds a window open: nothing of the block changes, nothing goes to the port handler,
the response is `(ERR, code)`, and the next event follows at once (R131). -/
def Obligations.RefusedWordChangesNothing : Prop :=
  ∀ (s : State) (w : Cmd) (rest : List Event) (c : Cause),
    s.phase.isEnded = false → s.inbox = .command w :: rest →
    (decode w = .error c ∨ (c = .portBusy ∧ s.svc ≠ none ∧ ∃ i, decode w = .ok i ∧ IsPort i)) →
      ∃ t, step s = .next t ∧ State.SameBlock s t ∧ t.outbox = errReply c.code :: s.outbox ∧ t.inbox = rest ∧ t.phase = s.phase

/-- The refusals, against the table's match, mask and constraint: the lowest cause that applies is the one reported, with its code, and when none applies no
refusal is answered (R132, R134; the order of the checks is R73's). -/
def Obligations.LowestCauseIsReported : Prop :=
  ∀ (s : State) (w : Cmd) (rest : List Event),
    s.phase.isEnded = false → s.inbox = .command w :: rest →
      let refused (n : Word) : Prop := ∃ t, step s = .next t ∧ State.SameBlock s t ∧ t.outbox = errReply n :: s.outbox
      ((∀ o : Opcode, o.isOpcodeOf w = false) → refused 1) ∧
      ∀ o : Opcode, o.isOpcodeOf w = true →
        (o.fieldsOk w = false → refused 2) ∧
        (o.fieldsOk w = true → o.operandOk w = false → refused 3) ∧
        (o.fieldsOk w = true → o.operandOk w = true → (o = .portrd ∨ o = .portwr) → s.svc ≠ none → refused 4) ∧
        (o.fieldsOk w = true → o.operandOk w = true → ¬ ((o = .portrd ∨ o = .portwr) ∧ s.svc ≠ none) →
          ∃ t r, step s = .next t ∧ t.outbox = r :: s.outbox ∧ ∀ n, r ≠ errReply n)

/-- The model's own mark (log 5): after a step it is set exactly when it was set before or the step answered with a refusal. -/
def Obligations.RefusalMarkIsExact : Prop :=
  ∀ s t : State, step s = .next t →
    (t.refused = true ↔ s.refused = true ∨ ∃ n, t.outbox = errReply n :: s.outbox)

/-! ## Encoding -/

/-- Decoding an encoded instruction gives it back, for every instruction and every operand. -/
def Obligations.DecodeOfEncode : Prop := ∀ i : Instr, decode (encode i) = .ok i

/-- Each word has one meaning: an instruction the decoder reads from a word has that word as its encoding (R68, R70). -/
def Obligations.EncodeOfDecode : Prop := ∀ (w : Cmd) (i : Instr), decode w = .ok i → encode i = w

/-- The decoder accepts exactly the words the table's match, mask and operand constraint admit; a word is an instance of one row only, and that row is
its instruction's (R68, R72). -/
def Obligations.DecoderAcceptsExactlyTheTable : Prop :=
  (∀ w : Cmd, wellFormed w = true ↔ ∃ i, decode w = .ok i) ∧
  ∀ (w : Cmd) (o : Opcode), o.admits w = true →
    (∀ o' : Opcode, o'.admits w = true → o' = o) ∧ ∃ i, decode w = .ok i ∧ i.opcode = o

/-- A few words of 95_test_vectors.md, read as the spec reads them: one at least of each family, and one refusal of each cause. -/
def Obligations.WrittenOutWordsDecode : Prop :=
  decode 0x01060000 = .ok (.get8 .h) ∧ decode 0x0207005A = .ok (.set8 .l 0x5A) ∧ decode 0x03040000 = .ok (.get16 .ix) ∧
    decode 0x0406FFFF = .ok (.set16 .sp 0xFFFF) ∧ decode 0x10FD0005 = .ok (.setctx .iy 0xFD) ∧
    decode 0x139C0000 = .ok (.setind 0x9C) ∧ decode 0x2176FFFF = .ok (.memwr 0xFFFF 0x76) ∧ decode 0x23000000 = .ok .fetch16 ∧
    decode 0x2400BEEF = .ok (.push 0xBEEF) ∧ decode 0x33410001 = .ok (.portwr 0x0001 0x41) ∧
    decode 0x3600FFFF = .ok (.addcyc 0xFFFF) ∧ decode 0xFFFFFFFF = .error .reservedOpcode ∧
    decode 0x010C0001 = .error .reservedField ∧ decode 0x04070000 = .error .reservedName

/-! ## Register access (40_register_access.md) -/

/-- `GET8 r` (R80): its word, its refusals, its response; nothing else changes. -/
def Obligations.GetEightRule : Prop :=
  (∀ r : Reg8, decode (cmdWord (0x01000000 + r.code.toNat * 0x10000)) = .ok (.get8 r)) ∧
  FieldRefusals 0x01 0x0000FFFF ∧ NameRefusals 0x01 0x0000FFFF (fun w => 12 ≤ (w.extractLsb' 16 8).toNat) ∧
  ∀ (r : Reg8) (s : State),
    exec (.get8 r) s = .next { s with outbox := okReply (BitVec.ofNat 16 (s.regs.get (tr8 s.ctx.sel r)).toNat) :: s.outbox }

/-- `SET8 r, v` (R81): its word, its refusals; exactly the cell `Tr8(r)` is written. -/
def Obligations.SetEightRule : Prop :=
  (∀ (r : Reg8) (v : Byte), decode (cmdWord (0x02000000 + r.code.toNat * 0x10000 + v.toNat)) = .ok (.set8 r v)) ∧
  FieldRefusals 0x02 0x0000FF00 ∧ NameRefusals 0x02 0x0000FF00 (fun w => 12 ≤ (w.extractLsb' 16 8).toNat) ∧
  ∀ (r : Reg8) (v : Byte) (s : State), ∃ t, exec (.set8 r v) s = .next t ∧
    t = { s with regs := t.regs, outbox := okReply 0 :: s.outbox } ∧
    ∀ n, t.regs.get n = if n = tr8 s.ctx.sel r then v else s.regs.get n

/-- `GET16 rr` (R82): its word, its refusals, its response; the displacement plays no part. -/
def Obligations.GetSixteenRule : Prop :=
  (∀ m : Reg16, decode (cmdWord (0x03000000 + m.code.toNat * 0x10000)) = .ok (.get16 m)) ∧
  FieldRefusals 0x03 0x0000FFFF ∧ NameRefusals 0x03 0x0000FFFF (fun w => 7 ≤ (w.extractLsb' 16 8).toNat) ∧
  ∀ (m : Reg16) (s : State),
    exec (.get16 m) s = .next { s with outbox := okReply (s.readR16 (tr16 s.ctx.sel m)) :: s.outbox }

/-- `SET16 rr, v` (R83): its word, its refusals; the two cells of the pair `Tr16(rr)`, or SP, are written and nothing else. -/
def Obligations.SetSixteenRule : Prop :=
  (∀ (m : Reg16) (v : Word), decode (cmdWord (0x04000000 + m.code.toNat * 0x10000 + v.toNat)) = .ok (.set16 m v)) ∧
  NameRefusals 0x04 0 (fun w => 7 ≤ (w.extractLsb' 16 8).toNat) ∧
  ∀ (m : Reg16) (v : Word) (s : State), ∃ t, exec (.set16 m v) s = .next t ∧
    t = { s with regs := t.regs, sp := t.sp, outbox := okReply 0 :: s.outbox } ∧
    t.sp = (if tr16 s.ctx.sel m = .sp then v else s.sp) ∧
    (∀ n, t.regs.get n =
      match Reg16.halves (tr16 s.ctx.sel m) with
      | some (hi, lo) =>
        if n = hi then BitVec.ofNat 8 (v.toNat / 256) else if n = lo then BitVec.ofNat 8 (v.toNat % 256) else s.regs.get n
      | none => s.regs.get n)

/-- The aliasing guarantee (R84): after any session under index contexts, restoring the default context shows the literal H and L as they
were, by GET8 H, GET8 L and GET16 HL. -/
def Obligations.IndexSessionKeepsLiteralHL : Prop :=
  ∀ (s : State) (sel : Selector) (d : Byte) (is : List Instr),
    s.ctx = Ctx.default → sel ≠ .hl → (∀ i ∈ is, IndexSessionCommand i) →
      ∃ t, performAll (.setctx sel d :: (is ++ [.setctx .hl 0])) s = .next t ∧
        t.regs.get .h = s.regs.get .h ∧ t.regs.get .l = s.regs.get .l ∧
        exec (.get8 .h) t = .next { t with outbox := okReply (BitVec.ofNat 16 (s.regs.get .h).toNat) :: t.outbox } ∧
        exec (.get8 .l) t = .next { t with outbox := okReply (BitVec.ofNat 16 (s.regs.get .l).toNat) :: t.outbox } ∧
        exec (.get16 .hl) t = .next { t with outbox := okReply (composed (s.regs.get .h) (s.regs.get .l)) :: t.outbox }

/-- Pair `m` is cell `2m` (high) and cell `2m+1` (low), and SP has no cells (R11, R13): a pair's value is `high*256 + low`; writing it writes its two cells and
nothing else, and writing the cells writes it; raw access to SP is SP. -/
def Obligations.PairIsItsTwoCells : Prop :=
  (∀ m : Reg16, m ≠ .sp → ∃ hi lo : Reg8,
    Reg16.halves m = some (hi, lo) ∧ hi.code.toNat = 2 * m.code.toNat ∧ lo.code.toNat = 2 * m.code.toNat + 1 ∧
    ∀ s : State,
      (s.readR16 m).toNat = (s.readR8 hi).toNat * 256 + (s.readR8 lo).toNat ∧
      (∀ v : Word, s.writeR16 m v = { s with regs := (s.writeR16 m v).regs } ∧
        ((s.writeR16 m v).readR8 hi).toNat = v.toNat / 256 ∧ ((s.writeR16 m v).readR8 lo).toNat = v.toNat % 256 ∧
        ∀ k, k ≠ hi → k ≠ lo → (s.writeR16 m v).readR8 k = s.readR8 k) ∧
      ∀ a b : Byte, (((s.writeR8 hi a).writeR8 lo b).readR16 m).toNat = a.toNat * 256 + b.toNat) ∧
  Reg16.halves .sp = none ∧ ∀ (s : State) (v : Word), s.readR16 .sp = s.sp ∧ s.writeR16 .sp v = { s with sp := v }

/-- A write to a byte cell changes that cell and nothing else in the register file (R14): no other cell, no pair without it, not SP. -/
def Obligations.CellsAreDisjoint : Prop :=
  ∀ (s : State) (n : Reg8) (v : Byte),
    (s.writeR8 n v).readR8 n = v ∧ (∀ k, k ≠ n → (s.writeR8 n v).readR8 k = s.readR8 k) ∧ (s.writeR8 n v).sp = s.sp ∧
      ∀ m : Reg16, (∀ hi lo, Reg16.halves m = some (hi, lo) → n ≠ hi ∧ n ≠ lo) → (s.writeR8 n v).readR16 m = s.readR16 m

/-- The flags byte is opaque storage (R17): only SET8 F and SET16 AF write it, and no command but GET8 F and GET16 AF depends on it. -/
def Obligations.FlagsByteIsOpaque : Prop :=
  ∀ (i : Instr) (s : State), (∀ v, i ≠ .set8 .f v) → (∀ v, i ≠ .set16 .af v) →
    (∀ t, exec i s = .next t → t.flags = s.flags) ∧
    (i ≠ .get8 .f → i ≠ .get16 .af → ∀ (x : Byte) (t : State), exec i s = .next t →
      exec i (s.writeR8 .f x) = .next (t.writeR8 .f x))

/-! ## Addressing-mode context (41_addressing_context.md) -/

/-- `Tr8` (R90): under IX or IY the names H and L move by 2 or 4 cells, every other name is itself; a legal cell always, never the literal
H or L under an index context. -/
def Obligations.TranslatedCellRule : Prop :=
  ∀ (c : Selector) (n : Reg8),
    (tr8 c n).code.toNat =
      (if n.code.toNat = 6 ∨ n.code.toNat = 7 then n.code.toNat + 2 * (c.code.toNat - 3) else n.code.toNat) ∧
    (tr8 c n).code.toNat ≤ 11 ∧ (c = .hl → tr8 c n = n) ∧
    (c ≠ .hl → (tr8 c n).code.toNat ≠ 6 ∧ (tr8 c n).code.toNat ≠ 7)

/-- `Tr16` (R91): the name HL stands for the selected register, every other name for itself. -/
def Obligations.TranslatedPairRule : Prop :=
  ∀ (c : Selector) (m : Reg16),
    (tr16 c m).code.toNat = (if m.code.toNat = 3 then c.code.toNat else m.code.toNat) ∧ (c = .hl → tr16 c m = m)

/-- `EA()` (R92): the selected register plus the signed displacement, modulo 65536, whatever the selector. That the displacement is added under
HL too is the spec's decision D7 (log 8). -/
def Obligations.EffectiveAddressRule : Prop := ∀ s : State, IsEffectiveAddress s (ea s.ctx s)

/-- `SETCTX s, d` (R93): its word, its refusals, both fields written; and no other command changes the context. -/
def Obligations.SetContextRule : Prop :=
  (∀ (sel : Selector) (d : Byte),
    decode (cmdWord (0x10000000 + d.toNat * 0x10000 + sel.code.toNat)) = .ok (.setctx sel d)) ∧
  FieldRefusals 0x10 0x0000FF00 ∧
  NameRefusals 0x10 0x0000FF00 (fun w => ¬ (3 ≤ (w.extractLsb' 0 8).toNat ∧ (w.extractLsb' 0 8).toNat ≤ 5)) ∧
  (∀ (sel : Selector) (d : Byte) (s : State),
    exec (.setctx sel d) s = .next { s with ctx := ⟨sel, d⟩, outbox := okReply 0 :: s.outbox }) ∧
  ∀ (i : Instr) (s t : State), (∀ sel d, i ≠ .setctx sel d) → exec i s = .next t → t.ctx = s.ctx

/-- `GETCTX` (R94): its word, its refusals, the displacement byte above the selector code; 0x0003 after any reset. -/
def Obligations.GetContextRule : Prop :=
  decode 0x11000000 = .ok .getctx ∧ FieldRefusals 0x11 0x00FFFFFF ∧
  (∀ s : State, exec .getctx s = .next { s with outbox := okReply (composed s.ctx.d s.ctx.sel.code) :: s.outbox }) ∧
  ∀ (fill : Byte) (g : RegFile) (sp pc : Word),
    exec .getctx (State.resetWith fill g sp pc) = .next { State.resetWith fill g sp pc with outbox := [okReply 0x0003] }

/-- `GETIND` (R95): its word, its refusals, the byte at the effective address; nothing else changes. -/
def Obligations.GetIndirectRule : Prop :=
  decode 0x12000000 = .ok .getind ∧ FieldRefusals 0x12 0x00FFFFFF ∧
  ∀ (s : State) (a : Word), IsEffectiveAddress s a →
    exec .getind s = .next { s with outbox := okReply (BitVec.ofNat 16 (s.readByte a).toNat) :: s.outbox }

/-- `SETIND v` (R96): its word, its refusals; exactly the byte at the effective address is written. -/
def Obligations.SetIndirectRule : Prop :=
  (∀ v : Byte, decode (cmdWord (0x13000000 + v.toNat * 0x10000)) = .ok (.setind v)) ∧ FieldRefusals 0x13 0x0000FFFF ∧
  ∀ (v : Byte) (s : State) (a : Word), IsEffectiveAddress s a → ∃ t, exec (.setind v) s = .next t ∧
    t = { s with mem := t.mem, outbox := okReply 0 :: s.outbox } ∧
    ∀ b, t.readByte b = if b = a then v else s.readByte b

/-- The indirect operand equals direct access at the effective address, for reading and for writing (R97). -/
def Obligations.IndirectEqualsDirect : Prop :=
  ∀ (s : State) (a : Word) (v : Byte), IsEffectiveAddress s a →
    exec .getind s = exec (.memrd a) s ∧ exec (.setind v) s = exec (.memwr a v) s

/-- Under an index context the literal H and L influence no command and no command changes them (R14, R85, R90 to R92, R95). -/
def Obligations.LiteralHLUnseenUnderIndexContext : Prop :=
  ∀ (i : Instr) (s t : State) (x y : Byte), s.ctx.sel ≠ .hl → exec i s = .next t →
    exec i ((s.writeR8 .h x).writeR8 .l y) = .next ((t.writeR8 .h x).writeR8 .l y)

/-! ## Memory, fetch, stack (42_memory_fetch_stack.md) -/

/-- `MEMRD a` (R100). -/
def Obligations.MemoryReadRule : Prop :=
  (∀ a : Word, decode (cmdWord (0x20000000 + a.toNat)) = .ok (.memrd a)) ∧ FieldRefusals 0x20 0x00FF0000 ∧
  ∀ (a : Word) (s : State),
    exec (.memrd a) s = .next { s with outbox := okReply (BitVec.ofNat 16 (s.readByte a).toNat) :: s.outbox }

/-- `MEMWR a, v` (R101): every word of its opcode is well formed; exactly the byte at `a` is written. -/
def Obligations.MemoryWriteRule : Prop :=
  (∀ (a : Word) (v : Byte), decode (cmdWord (0x21000000 + v.toNat * 0x10000 + a.toNat)) = .ok (.memwr a v)) ∧
  ∀ (a : Word) (v : Byte) (s : State), ∃ t, exec (.memwr a v) s = .next t ∧
    t = { s with mem := t.mem, outbox := okReply 0 :: s.outbox } ∧
    ∀ b, t.readByte b = if b = a then v else s.readByte b

/-- `FETCH8` (R102): the byte at PC, and PC advanced by one, 0xFFFF wrapping to 0x0000. -/
def Obligations.FetchByteRule : Prop :=
  decode 0x22000000 = .ok .fetch8 ∧ FieldRefusals 0x22 0x00FFFFFF ∧
  ∀ s : State,
    exec .fetch8 s = .next { s with
      pc := BitVec.ofNat 16 ((s.pc.toNat + 1) % 65536)
      outbox := okReply (BitVec.ofNat 16 (s.readByte s.pc).toNat) :: s.outbox }

/-- `FETCH16` (R103): the two bytes at PC, low byte first, and PC advanced by two; the same bytes and the same PC as two FETCH8. -/
def Obligations.FetchWordRule : Prop :=
  decode 0x23000000 = .ok .fetch16 ∧ FieldRefusals 0x23 0x00FFFFFF ∧
  ∀ s : State,
    exec .fetch16 s = .next { s with
      pc := s.pc + 2
      outbox := okReply (composed (s.readByte (s.pc + 1)) (s.readByte s.pc)) :: s.outbox } ∧
    ∃ t u lo hi, exec .fetch8 s = .next t ∧ exec .fetch8 t = .next u ∧
      u.outbox = okReply (BitVec.ofNat 16 hi) :: okReply (BitVec.ofNat 16 lo) :: s.outbox ∧ lo < 256 ∧ hi < 256 ∧
      exec .fetch16 s = .next { u with outbox := okReply (BitVec.ofNat 16 (hi * 256 + lo)) :: s.outbox }

/-- `PUSH v` (R104, R107): the low byte at SP - 2, the high byte at SP - 1, SP decreased by two, nothing else. -/
def Obligations.PushRule : Prop :=
  (∀ v : Word, decode (cmdWord (0x24000000 + v.toNat)) = .ok (.push v)) ∧ FieldRefusals 0x24 0x00FF0000 ∧
  ∀ (v : Word) (s : State), ∃ t, exec (.push v) s = .next t ∧
    t = { s with sp := s.sp - 2, mem := t.mem, outbox := okReply 0 :: s.outbox } ∧
    ∀ b, t.readByte b =
      if b = s.sp - 2 then BitVec.ofNat 8 (v.toNat % 256) else if b = s.sp - 1 then BitVec.ofNat 8 (v.toNat / 256) else s.readByte b

/-- `POP` (R105): the two bytes at SP, low byte first, SP increased by two, memory unchanged. -/
def Obligations.PopRule : Prop :=
  decode 0x25000000 = .ok .pop ∧ FieldRefusals 0x25 0x00FFFFFF ∧
  ∀ s : State,
    exec .pop s = .next { s with
      sp := s.sp + 2
      outbox := okReply (composed (s.readByte (s.sp + 1)) (s.readByte s.sp)) :: s.outbox }

/-- Push and pop are inverse (R106): POP after PUSH returns the value and restores SP, for every SP; and pushing back what POP returned changes
nothing in the block. -/
def Obligations.PushPopAreInverse : Prop :=
  (∀ (s : State) (v : Word), ∃ t, performAll [.push v, .pop] s = .next t ∧
    t = { s with mem := t.mem, outbox := okReply v :: okReply 0 :: s.outbox }) ∧
  ∀ s : State, ∃ t u v, exec .pop s = .next t ∧ t.outbox = okReply v :: s.outbox ∧ exec (.push v) t = .next u ∧
    State.SameBlock s u ∧ (s.mem.wf = true → u.mem = s.mem)

/-- A byte stored by MEMWR, by SETIND or by PUSH is what the next FETCH8 of its address returns (R53, R176). -/
def Obligations.StoreIsFetchedAtOnce : Prop :=
  ∀ (s : State) (v : Byte) (x : Word),
    (∃ t u, exec (.memwr s.pc v) s = .next t ∧ exec .fetch8 t = .next u ∧
      u.outbox = okReply (BitVec.ofNat 16 v.toNat) :: okReply 0 :: s.outbox) ∧
    (IsEffectiveAddress s s.pc → ∃ t u, exec (.setind v) s = .next t ∧ exec .fetch8 t = .next u ∧
      u.outbox = okReply (BitVec.ofNat 16 v.toNat) :: okReply 0 :: s.outbox) ∧
    (s.pc = s.sp - 2 → ∃ t u, exec (.push x) s = .next t ∧ exec .fetch8 t = .next u ∧
      u.outbox = okReply (BitVec.ofNat 16 (x.toNat % 256)) :: okReply 0 :: s.outbox) ∧
    (s.pc = s.sp - 1 → ∃ t u, exec (.push x) s = .next t ∧ exec .fetch8 t = .next u ∧
      u.outbox = okReply (BitVec.ofNat 16 (x.toNat / 256)) :: okReply 0 :: s.outbox)

/-! ## Program counter, ports, halted flag, cycle counter (43_control_port_system.md) -/

/-- `GETPC` and `SETPC v` (R110, R111): their words and refusals; every 16-bit value is a legal target, the next FETCH8 reads there, and nothing else
changes. -/
def Obligations.ProgramCounterRules : Prop :=
  decode 0x30000000 = .ok .getpc ∧ FieldRefusals 0x30 0x00FFFFFF ∧
  (∀ s : State, exec .getpc s = .next { s with outbox := okReply s.pc :: s.outbox }) ∧
  (∀ v : Word, decode (cmdWord (0x31000000 + v.toNat)) = .ok (.setpc v)) ∧ FieldRefusals 0x31 0x00FF0000 ∧
  ∀ (v : Word) (s : State), exec (.setpc v) s = .next { s with pc := v, outbox := okReply 0 :: s.outbox } ∧
    ∃ t u, exec (.setpc v) s = .next t ∧ exec .fetch8 t = .next u ∧
      u.outbox = okReply (BitVec.ofNat 16 (s.readByte v).toNat) :: t.outbox

/-- A call, then the return (R112): the return lands behind the call with SP as it was, and POP's response is the return address. -/
def Obligations.CallThenReturn : Prop :=
  ∀ (s : State) (target : Word), ∃ t u,
    performAll [.getpc, .push s.pc, .setpc target] s = .next t ∧
    t.outbox = okReply 0 :: okReply 0 :: okReply s.pc :: s.outbox ∧ t.pc = target ∧ t.sp = s.sp - 2 ∧ t.regs = s.regs ∧
    performAll [.pop, .setpc s.pc] t = .next u ∧ u.outbox = okReply 0 :: okReply s.pc :: t.outbox ∧
    u.pc = s.pc ∧ u.sp = s.sp ∧ u.regs = s.regs

/-- `PORTRD p` (R113): its word, its refusals (cause 4 while a window is open), SVC set and the request sent; and on the handler's `port_done(rv)`
SVC cleared and the byte returned. -/
def Obligations.PortReadRule : Prop :=
  (∀ p : Word, decode (cmdWord (0x32000000 + p.toNat)) = .ok (.portrd p)) ∧ FieldRefusals 0x32 0x00FF0000 ∧
  (∀ (p : Word) (s : State), s.svc ≠ none →
    exec (.portrd p) s = .next { s with refused := true, outbox := errReply 4 :: s.outbox }) ∧
  (∀ (p : Word) (s : State), s.svc = none →
    exec (.portrd p) s = .next { s with svc := some .read, outbox := .portReq (.read p) :: s.outbox }) ∧
  ∀ (s : State) (rv : Byte) (rest : List Event), s.phase.isEnded = false → s.svc = some .read →
    s.inbox = .portDoneRead rv :: rest →
      step s = .next { s with inbox := rest, svc := none, outbox := okReply (BitVec.ofNat 16 rv.toNat) :: s.outbox }

/-- `PORTWR p, v` (R114): its word, its refusal (cause 4 while a window is open), SVC set and the request sent; and on the handler's `port_done()` SVC
cleared and `OK 0`. -/
def Obligations.PortWriteRule : Prop :=
  (∀ (p : Word) (v : Byte), decode (cmdWord (0x33000000 + v.toNat * 0x10000 + p.toNat)) = .ok (.portwr p v)) ∧
  (∀ (p : Word) (v : Byte) (s : State), s.svc ≠ none →
    exec (.portwr p v) s = .next { s with refused := true, outbox := errReply 4 :: s.outbox }) ∧
  (∀ (p : Word) (v : Byte) (s : State), s.svc = none →
    exec (.portwr p v) s = .next { s with svc := some .write, outbox := .portReq (.write p v) :: s.outbox }) ∧
  ∀ (s : State) (rest : List Event), s.phase.isEnded = false → s.svc = some .write → s.inbox = .portDoneWrite :: rest →
    step s = .next { s with inbox := rest, svc := none, outbox := okReply 0 :: s.outbox }

/-- The service window (R115): every command but the port commands does in it what it does outside; the port commands are refused with cause 4
and the window stays open. -/
def Obligations.ServiceWindowRule : Prop :=
  ∀ (i : Instr) (s : State) (d : PortDir),
    (¬ IsPort i → ∀ t, exec i { s with svc := none } = .next t → exec i { s with svc := some d } = .next { t with svc := some d }) ∧
    (IsPort i → exec i { s with svc := some d } =
      .next { s with svc := some d, refused := true, outbox := errReply 4 :: s.outbox })

/-- A whole port access (R113 to R116): the state after it is the state reached by performing the handler's words, whatever they are, from the state at the
request; nothing else changes, and the response is the handler's byte for a read, `OK 0` for a write. That an access is several steps is the model's (log 6). -/
def Obligations.PortTransaction : Prop :=
  ∀ (s : State) (ws : List Cmd) (rest : List Event), s.phase.isEnded = false → s.svc = none →
    (∀ (p : Word) (rv : Byte),
      s.inbox = .command (encode (.portrd p)) :: (ws.map Event.command ++ .portDoneRead rv :: rest) →
        ∃ u, receiveWords ws { s with inbox := rest, svc := some .read, outbox := .portReq (.read p) :: s.outbox } = .next u ∧
          u.svc = some .read ∧
          Host.Core.run core (ws.length + 2) s =
            .next { u with svc := none, outbox := okReply (BitVec.ofNat 16 rv.toNat) :: u.outbox }) ∧
    ∀ (p : Word) (v : Byte),
      s.inbox = .command (encode (.portwr p v)) :: (ws.map Event.command ++ .portDoneWrite :: rest) →
        ∃ u, receiveWords ws { s with inbox := rest, svc := some .write, outbox := .portReq (.write p v) :: s.outbox } = .next u ∧
          u.svc = some .write ∧
          Host.Core.run core (ws.length + 2) s = .next { u with svc := none, outbox := okReply 0 :: u.outbox }

/-- What a port handler's words can do in an open window (R116): every one is answered, HALTED can be set but not cleared, CYCLE can grow but not
shrink, SVC cannot change. -/
def Obligations.HandlerPowers : Prop :=
  ∀ (ws : List Cmd) (s : State) (d : PortDir), s.svc = some d →
    ∃ t, receiveWords ws s = .next t ∧ t.svc = some d ∧ (s.halted = true → t.halted = true) ∧ s.cycle ≤ t.cycle ∧
      ∃ rs : List Response, rs.length = ws.length ∧ t.outbox = rs.map Output.response ++ s.outbox

/-- `SETHALT` and `GETHALT` (R117, R118): HALTED becomes 1 and nothing else changes, PC included; it reads as 0x0000 or 0x0001, 0 after any reset. No command
clears it, every command is still performed, and it gates nothing: from a state that differs in it alone a command does the same. -/
def Obligations.HaltedFlagRules : Prop :=
  decode 0x34000000 = .ok .sethalt ∧ FieldRefusals 0x34 0x00FFFFFF ∧
  (∀ s : State, exec .sethalt s = .next { s with halted := true, outbox := okReply 0 :: s.outbox }) ∧
  decode 0x35000000 = .ok .gethalt ∧ FieldRefusals 0x35 0x00FFFFFF ∧
  (∀ s : State, exec .gethalt s =
    .next { s with outbox := okReply (if s.halted = true then 0x0001 else 0x0000) :: s.outbox }) ∧
  (∀ (fill : Byte) (g : RegFile) (sp pc : Word),
    exec .gethalt (State.resetWith fill g sp pc) = .next { State.resetWith fill g sp pc with outbox := [okReply 0x0000] }) ∧
  (∀ (i : Instr) (s : State), s.halted = true → ∃ t, exec i s = .next t ∧ t.halted = true) ∧
  ∀ (i : Instr) (s t : State), i ≠ .gethalt → exec i s = .next t →
    exec i { s with halted := true } = .next { t with halted := true }

/-- `ADDCYC n` and `GETCYC` (R119, R120): the natural number grows by `n` with no wrap; it is read whole, 0 after any reset, and reading does not advance it. No other
command changes it, and none but GETCYC depends on it: from a state that differs in it alone a command does the same. -/
def Obligations.CycleCounterRules : Prop :=
  (∀ n : Word, decode (cmdWord (0x36000000 + n.toNat)) = .ok (.addcyc n)) ∧ FieldRefusals 0x36 0x00FF0000 ∧
  (∀ (n : Word) (s : State),
    exec (.addcyc n) s = .next { s with cycle := s.cycle + n.toNat, outbox := okReply 0 :: s.outbox }) ∧
  decode 0x37000000 = .ok .getcyc ∧ FieldRefusals 0x37 0x00FFFFFF ∧
  (∀ s : State, exec .getcyc s = .next { s with outbox := .response ⟨.ok, .count s.cycle⟩ :: s.outbox }) ∧
  (∀ (fill : Byte) (g : RegFile) (sp pc : Word),
    exec .getcyc (State.resetWith fill g sp pc) =
      .next { State.resetWith fill g sp pc with outbox := [.response ⟨.ok, .count 0⟩] }) ∧
  (∀ (i : Instr) (s t : State), (∀ n, i ≠ .addcyc n) → exec i s = .next t → t.cycle = s.cycle) ∧
  ∀ (i : Instr) (s t : State) (n : Nat), i ≠ .getcyc → exec i s = .next t →
    exec i { s with cycle := s.cycle + n } = .next { t with cycle := t.cycle + n }

/-! ## The whole machine -/

/-- The machine right after reset, for EVERY value of the open parameters `MEM_RESET_FILL` and `RESET_REGS` (R26, R160): what the rules give, and nothing about the
values they leave open; the model's reset state is one of these. -/
def Obligations.ResetValues : Prop :=
  (∃ fill g sp pc, State.reset = State.resetWith fill g sp pc) ∧
  ∀ (fill : Byte) (g : RegFile) (sp pc : Word),
    let s := State.resetWith fill g sp pc
    s.ctx = ⟨.hl, 0⟩ ∧ s.halted = false ∧ s.cycle = 0 ∧ s.svc = none ∧ (∀ a, s.readByte a = fill) ∧
      s.regs = g ∧ s.sp = sp ∧ s.pc = pc

/-- No command faults on an address or a value (R130): every command of every state answers with a next state and exactly one output: `OK` data, or, for
a port command, its request, or `ERR 4` while a window is open (R115). That a port command's own step sends the request, and its handler's completion the response,
is the model's split (log 6). -/
def Obligations.EveryCommandIsAnswered : Prop :=
  ∀ (i : Instr) (s : State), ∃ t o, exec i s = .next t ∧ t.outbox = o :: s.outbox ∧
    (¬ IsPort i → ∃ d, o = .response ⟨.ok, d⟩) ∧
    (IsPort i → s.svc = none → ∃ q, o = .portReq q) ∧
    (IsPort i → s.svc ≠ none → o = errReply 4)

/-- Who writes what (R25, the "w" of its table; R16, R54): a command leaves every piece of the block's state alone but those its row names, and the
model's interface fields `inbox` and `phase` too. -/
def Obligations.AccessSummary : Prop :=
  ∀ (i : Instr) (s t : State), exec i s = .next t →
    ((∀ r v, i ≠ .set8 r v) → (∀ m v, i ≠ .set16 m v) → t.regs = s.regs) ∧
    ((∀ m v, i ≠ .set16 m v) → (∀ v, i ≠ .push v) → i ≠ .pop → t.sp = s.sp) ∧
    (i ≠ .fetch8 → i ≠ .fetch16 → (∀ v, i ≠ .setpc v) → t.pc = s.pc) ∧
    ((∀ v, i ≠ .setind v) → (∀ a v, i ≠ .memwr a v) → (∀ v, i ≠ .push v) → t.mem = s.mem) ∧
    ((∀ c d, i ≠ .setctx c d) → t.ctx = s.ctx) ∧ (i ≠ .sethalt → t.halted = s.halted) ∧
    ((∀ n, i ≠ .addcyc n) → t.cycle = s.cycle) ∧ (¬ IsPort i → t.svc = s.svc) ∧
    t.inbox = s.inbox ∧ t.phase = s.phase

/-- Every step keeps the model's invariant: the memory list stays in its canonical form, which is the model's own representation of R22 (log 2), and a run that has
ended, the model's own field `phase` (log 13), has no service window open. -/
def Obligations.EveryStepKeepsInvariant : Prop := ∀ s t : State, s.Inv → step s = .next t → t.Inv

/-- The model's invariant, its memory's canonical form (log 2) and its `phase` field (log 13), holds after every reset, for every value of the open parameters. -/
def Obligations.InvariantAtReset : Prop :=
  ∀ (fill : Byte) (g : RegFile) (sp pc : Word), (State.resetWith fill g sp pc).Inv

/-- Nothing goes back (R19, R20): over any step, whatever its event, HALTED is not cleared and CYCLE does not decrease; and in the model's own fields the
mark `refused` is not cleared and what has been sent stays sent (log 4, log 5). -/
def Obligations.HaltedAndCycleNeverGoBack : Prop :=
  ∀ s t : State, step s = .next t →
    (s.halted = true → t.halted = true) ∧ s.cycle ≤ t.cycle ∧ (s.refused = true → t.refused = true) ∧
      ∃ new, t.outbox = new ++ s.outbox

/-! ## Engine discipline (70_reset_and_hazards.md) -/

/-- The context after a sequence of commands is what its last SETCTX says; so an engine whose instruction ends with the default context leaves the default
context behind (R93, R171). -/
def Obligations.ContextAfterASequence : Prop :=
  ∀ (is : List Instr) (s : State), ∃ t, performAll is s = .next t ∧ t.ctx = ctxAfter s.ctx is ∧
    (RestoresContext is → s.CtxDefault → t.CtxDefault)

/-- The stale displacement of R173 cannot arise from an engine that uses `d = 0` with selector HL; where it is absent, the default selector reads at HL. -/
def Obligations.NoStaleDisplacement : Prop :=
  (∀ (i : Instr) (s t : State), NoStaleDisp i → s.DispClear → exec i s = .next t → t.DispClear) ∧
  ∀ s : State, s.DispClear → s.ctx.sel = .hl →
    exec .getind s = exec (.memrd (composed (s.regs.get .h) (s.regs.get .l))) s

/-! ## The dispatcher and the end of a run (60_exceptions.md, environment rules) -/

/-- The dispatcher's checks, in the order of R135, the first match acting (R137 to R140): they are made by its two reads, GETHALT and GETPC, change nothing in
the block (R141), and are made when the engine's instruction is complete, with the environment's own addresses (R136; log 9, log 10). -/
def Obligations.DispatcherChecksInOrder : Prop :=
  (∀ (s : State) (rest : List Event), s.phase = .running → s.svc = none → s.inbox = .instrDone :: rest →
    step s = .next (dispatchChecks Config.envParams { s with inbox := rest })) ∧
  ∀ (p : EnvParams) (s : State),
    let read (ph : Phase) : State := { s with phase := ph, outbox := okReply s.pc :: okReply 0 :: s.outbox }
    (s.halted = true →
      dispatchChecks p s = { s with phase := .ended .haltAbort, outbox := okReply 1 :: s.outbox }) ∧
    (s.halted = false → s.pc ∈ p.biosRegion → dispatchChecks p s = read (.bios s.pc)) ∧
    (s.halted = false → s.pc ∉ p.biosRegion → s.pc = p.bdosEntry → dispatchChecks p s = read .bdos) ∧
    (s.halted = false → s.pc ∉ p.biosRegion → s.pc + 1 = p.bdosEntry →
      dispatchChecks p s = read (.ended .runawayAbort)) ∧
    (s.halted = false → s.pc ∉ p.biosRegion → s.pc ≠ p.bdosEntry → s.pc + 1 ≠ p.bdosEntry →
      dispatchChecks p s = read s.phase)

/-- The BDOS handler's end resumes the caller by the simulated return (R139, R142): the address on top of the stack becomes PC and SP rises by two, exactly
as POP and SETPC do it. That the return is made when the handler ends, and not by its own commands, is log 12. -/
def Obligations.BdosHandlerReturnsToCaller : Prop :=
  ∀ (s : State) (rest : List Event), s.phase = .bdos → s.svc = none → s.inbox = .serviceDone .continue :: rest →
    ∃ ret : Word, ret = composed (s.readByte (s.sp + 1)) (s.readByte s.sp) ∧
      step s = .next { s with
        inbox := rest
        pc := ret
        sp := s.sp + 2
        phase := .running
        outbox := okReply 0 :: okReply ret :: s.outbox } ∧
      ∃ u, performAll [.pop, .setpc ret] { s with inbox := rest } = .next u ∧ step s = .next { u with phase := .running }

/-- The BIOS handler's verdict (R138): a true result ends the loop normally, any other lets it go on; the block is left as the handler left it. -/
def Obligations.BiosHandlerVerdict : Prop :=
  ∀ (s : State) (v : Word) (rest : List Event), s.phase = .bios v → s.svc = none →
    (s.inbox = .serviceDone .stop :: rest → step s = .next { s with inbox := rest, phase := .ended .programExit }) ∧
    (s.inbox = .serviceDone .continue :: rest → step s = .next { s with inbox := rest, phase := .running })

/-- How a run ends (R144): by the BIOS handler's program exit, by the halted flag, by the runaway guard, or (log 12) by the BDOS handler's stop
verdict; and once it has ended no further command is issued. -/
def Obligations.RunEndsOnlySo : Prop :=
  (∀ (s t : State) (e : RunEnd), s.phase.isEnded = false → step s = .next t → t.phase = .ended e →
    ∃ rest,
      (e = .programExit ∧ (∃ a, s.phase = .bios a) ∧ s.inbox = .serviceDone .stop :: rest) ∨
      (e = .haltAbort ∧ s.halted = true ∧ s.inbox = .instrDone :: rest) ∨
      (e = .runawayAbort ∧ s.halted = false ∧ s.pc + 1 = Config.envParams.bdosEntry ∧
        s.pc ∉ Config.envParams.biosRegion ∧ s.inbox = .instrDone :: rest) ∨
      (e = .serviceStop ∧ s.phase = .bdos ∧ s.inbox = .serviceDone .stop :: rest)) ∧
  ∀ (s : State) (e : RunEnd), s.phase = .ended e → step s = .fault (.runEnded e)

/-! ## The loader (70_reset_and_hazards.md, environment rules) -/

/-- Loading (R162, R163). Mode (b): byte `i` of the file at `TPA_BASE + i`, truncated silently at the capacity, the writes never wrapping. Mode (a): the
image's bytes at `CCP_BASE`, for an image that fits below the top of memory (U14). No other byte and no other state changes, and nothing is refused. -/
def Obligations.ImageIsLoaded : Prop :=
  ∀ (p : EnvParams) (bytes : List Byte) (s : State),
    (loadAddress p (.transient bytes) = p.tpaBase ∧
      ∃ t, performAll (writeBytes p.tpaBase (loadedBytes p (.transient bytes))) s = .next t ∧
        t = { s with mem := t.mem, outbox := t.outbox } ∧
        ∀ a : Word, t.readByte a =
          if p.tpaBase.toNat ≤ a.toNat then (bytes[a.toNat - p.tpaBase.toNat]?).getD (s.readByte a) else s.readByte a) ∧
    (p.ccpBase.toNat + bytes.length ≤ 65536 →
      loadAddress p (.commandProcessor bytes) = p.ccpBase ∧
      ∃ t, performAll (writeBytes p.ccpBase (loadedBytes p (.commandProcessor bytes))) s = .next t ∧
        t = { s with mem := t.mem, outbox := t.outbox } ∧
        ∀ a : Word, t.readByte a =
          if p.ccpBase.toNat ≤ a.toNat then (bytes[a.toNat - p.ccpBase.toNat]?).getD (s.readByte a) else s.readByte a)

/-- Stack preparation (R165): the zero sentinel at `TPA_STACK`, SP pointing at it, no other byte changed; a POP then returns 0x0000 and leaves
`TPA_STACK + 2`; and the other route, `SET16 SP` and `PUSH 0`, reaches the same block. It is done for a transient program, and in mode (a) by the flag. -/
def Obligations.SentinelStackIsPrepared : Prop :=
  ∀ (p : EnvParams) (s : State),
    (∀ file, stackPrepared p (.transient file) = true) ∧
    (∀ image, stackPrepared p (.commandProcessor image) = p.stackPrepInModeA) ∧
    ∃ t u, performAll (stackPrepCommands p) s = .next t ∧ t.sp = p.tpaStack ∧
      (∀ a, t.readByte a = if a = p.tpaStack ∨ a = p.tpaStack + 1 then 0 else s.readByte a) ∧
      exec .pop t = .next { t with sp := p.tpaStack + 2, outbox := okReply 0x0000 :: t.outbox } ∧
      performAll [.set16 .sp (p.tpaStack + 2), .push 0] s = .next u ∧ State.SameBlock t u

/-- The state at the first guest instruction (R166, R167): PC is the load address, SP the prepared stack with the zero sentinel in place, and nothing else of the
block but memory is touched; the loader opens no window, sets no context, halts nothing, and no word of it is refused. The whole of memory is what it was,
overlaid by the image, the parameter areas and the sentinel in this order, for byte lists no longer than the memory (the order is the source's, log 14). -/
def Obligations.StateAtFirstGuestInstruction : Prop :=
  ∀ (p : EnvParams) (q : LoadRequest) (s : State), ∃ t, performAll (loaderCommands p q) s = .next t ∧
    t = { s with
      pc := loadAddress p q.mode
      sp := if stackPrepared p q.mode then p.tpaStack else s.sp
      mem := t.mem
      outbox := t.outbox } ∧
    (stackPrepared p q.mode = true → t.readByte p.tpaStack = 0 ∧ t.readByte (p.tpaStack + 1) = 0) ∧
    ((loadedBytes p q.mode).length ≤ 65536 → q.fcb1Bytes.length ≤ 65536 → q.fcb2Bytes.length ≤ 65536 →
      let image := overlay (loadAddress p q.mode) (loadedBytes p q.mode) s.readByte
      let params := match q.tail with
        | none => image
        | some tail => overlay p.fcb2 q.fcb2Bytes (overlay p.fcb1 q.fcb1Bytes (overlay p.paramBuf (parameterBytes tail) image))
      ∀ a, t.readByte a = if stackPrepared p q.mode then overlay p.tpaStack [0, 0] params a else params a)

/-- The loader's commands, placed before everything else that is to come, are performed by the machine's own steps, one a step (R51, R167; log 3, log 14). -/
def Obligations.LoaderRunsOnTheMachine : Prop :=
  ∀ (p : EnvParams) (q : LoadRequest) (s : State), s.phase.isEnded = false →
    Host.Core.run core (loaderCommands p q).length (s.withLoader p q) = performAll (loaderCommands p q) s

/-! ## Responses and parameters -/

/-- The response to a command word (R61): one response, its status encoded 0 for `OK` and 1 for `ERR`; with `ERR` the data is the cause code and the block is
unchanged; with `OK` it is 16 bits but for GETCYC, whose data is the whole of CYCLE. A port command outside a window is answered by its completion (log 6):
`OK` too. -/
def Obligations.ResponseRule : Prop :=
  (∀ (s : State) (w : Cmd) (rest : List Event), s.phase.isEnded = false → s.inbox = .command w :: rest →
    (∀ c, (decode w = .error c ∨ (c = .portBusy ∧ s.svc ≠ none ∧ ∃ i, decode w = .ok i ∧ IsPort i)) →
      ∃ t r, step s = .next t ∧ t.outbox = .response r :: s.outbox ∧ r.status.code = 1 ∧ r.data = .word c.code ∧ State.SameBlock s t) ∧
    ∀ i, decode w = .ok i → ¬ IsPort i →
      ∃ t r, step s = .next t ∧ t.outbox = .response r :: s.outbox ∧ r.status.code = 0 ∧
        (i = .getcyc → r.data = .count s.cycle) ∧ (i ≠ .getcyc → ∃ v, r.data = .word v)) ∧
  ∀ (s : State) (rest : List Event), s.phase.isEnded = false →
    (∀ rv, s.svc = some .read → s.inbox = .portDoneRead rv :: rest →
      ∃ t r, step s = .next t ∧ t.outbox = .response r :: s.outbox ∧ r.status.code = 0 ∧ r.data = .word (BitVec.ofNat 16 rv.toNat)) ∧
    (s.svc = some .write → s.inbox = .portDoneWrite :: rest →
      ∃ t r, step s = .next t ∧ t.outbox = .response r :: s.outbox ∧ r.status.code = 0 ∧ r.data = .word 0)

/-- Parameter marshalling (R164): given a command tail, the count byte capped at 126 at `PARAM_BUF`, then the characters at the following addresses (of a longer tail
the first 126, log 14), then the bytes of the two file control blocks, and no other byte, no register and nothing else; without a tail nothing is written. -/
def Obligations.ParametersAreMarshalled : Prop :=
  ∀ (p : EnvParams) (q : LoadRequest) (s : State),
    (q.tail = none → marshalCommands p q = []) ∧
    ∀ tail, q.tail = some tail →
      ∃ t, performAll (marshalCommands p q) s = .next t ∧ t = { s with mem := t.mem, outbox := t.outbox } ∧
        (q.fcb1Bytes.length ≤ 65536 → q.fcb2Bytes.length ≤ 65536 →
          (∀ a, t.readByte a =
            overlay p.fcb2 q.fcb2Bytes (overlay p.fcb1 q.fcb1Bytes (overlay p.paramBuf (parameterBytes tail) s.readByte)) a) ∧
          ∀ a : Word, q.fcb1Bytes.length ≤ (a - p.fcb1).toNat → q.fcb2Bytes.length ≤ (a - p.fcb2).toNat →
            (a = p.paramBuf → (t.readByte a).toNat = min tail.length 126) ∧
            ∀ i c, i < 126 → tail[i]? = some c → a = p.paramBuf + 1 + BitVec.ofNat 16 i → t.readByte a = c)
end

