-- ==== Sys2Proof/Laws/State.lean ====
section
/-! SUPPORT. One lemma per field per update of the state, true by rfl, so that no later proof unfolds a record update. -/

namespace Sys2Proof.Machine

variable (s : State)

/-! ### writeR8 -/

@[simp] theorem State.writeR8_regs (n : Reg8) (v : Byte) : (s.writeR8 n v).regs = s.regs.set n v := rfl
@[simp] theorem State.writeR8_sp (n : Reg8) (v : Byte) : (s.writeR8 n v).sp = s.sp := rfl
@[simp] theorem State.writeR8_pc (n : Reg8) (v : Byte) : (s.writeR8 n v).pc = s.pc := rfl
@[simp] theorem State.writeR8_mem (n : Reg8) (v : Byte) : (s.writeR8 n v).mem = s.mem := rfl
@[simp] theorem State.writeR8_ctx (n : Reg8) (v : Byte) : (s.writeR8 n v).ctx = s.ctx := rfl
@[simp] theorem State.writeR8_halted (n : Reg8) (v : Byte) : (s.writeR8 n v).halted = s.halted := rfl
@[simp] theorem State.writeR8_cycle (n : Reg8) (v : Byte) : (s.writeR8 n v).cycle = s.cycle := rfl
@[simp] theorem State.writeR8_svc (n : Reg8) (v : Byte) : (s.writeR8 n v).svc = s.svc := rfl
@[simp] theorem State.writeR8_inbox (n : Reg8) (v : Byte) : (s.writeR8 n v).inbox = s.inbox := rfl
@[simp] theorem State.writeR8_outbox (n : Reg8) (v : Byte) : (s.writeR8 n v).outbox = s.outbox := rfl
@[simp] theorem State.writeR8_refused (n : Reg8) (v : Byte) : (s.writeR8 n v).refused = s.refused := rfl
@[simp] theorem State.writeR8_phase (n : Reg8) (v : Byte) : (s.writeR8 n v).phase = s.phase := rfl

/-! ### writeByte -/

@[simp] theorem State.writeByte_regs (a : Word) (v : Byte) : (s.writeByte a v).regs = s.regs := rfl
@[simp] theorem State.writeByte_sp (a : Word) (v : Byte) : (s.writeByte a v).sp = s.sp := rfl
@[simp] theorem State.writeByte_pc (a : Word) (v : Byte) : (s.writeByte a v).pc = s.pc := rfl
@[simp] theorem State.writeByte_mem (a : Word) (v : Byte) : (s.writeByte a v).mem = Memory.write s.mem a.toNat v := rfl
@[simp] theorem State.writeByte_ctx (a : Word) (v : Byte) : (s.writeByte a v).ctx = s.ctx := rfl
@[simp] theorem State.writeByte_halted (a : Word) (v : Byte) : (s.writeByte a v).halted = s.halted := rfl
@[simp] theorem State.writeByte_cycle (a : Word) (v : Byte) : (s.writeByte a v).cycle = s.cycle := rfl
@[simp] theorem State.writeByte_svc (a : Word) (v : Byte) : (s.writeByte a v).svc = s.svc := rfl
@[simp] theorem State.writeByte_inbox (a : Word) (v : Byte) : (s.writeByte a v).inbox = s.inbox := rfl
@[simp] theorem State.writeByte_outbox (a : Word) (v : Byte) : (s.writeByte a v).outbox = s.outbox := rfl
@[simp] theorem State.writeByte_refused (a : Word) (v : Byte) : (s.writeByte a v).refused = s.refused := rfl
@[simp] theorem State.writeByte_phase (a : Word) (v : Byte) : (s.writeByte a v).phase = s.phase := rfl

/-! ### send -/

@[simp] theorem State.send_regs (o : Output) : (s.send o).regs = s.regs := rfl
@[simp] theorem State.send_sp (o : Output) : (s.send o).sp = s.sp := rfl
@[simp] theorem State.send_pc (o : Output) : (s.send o).pc = s.pc := rfl
@[simp] theorem State.send_mem (o : Output) : (s.send o).mem = s.mem := rfl
@[simp] theorem State.send_ctx (o : Output) : (s.send o).ctx = s.ctx := rfl
@[simp] theorem State.send_halted (o : Output) : (s.send o).halted = s.halted := rfl
@[simp] theorem State.send_cycle (o : Output) : (s.send o).cycle = s.cycle := rfl
@[simp] theorem State.send_svc (o : Output) : (s.send o).svc = s.svc := rfl
@[simp] theorem State.send_inbox (o : Output) : (s.send o).inbox = s.inbox := rfl
@[simp] theorem State.send_outbox (o : Output) : (s.send o).outbox = o :: s.outbox := rfl
@[simp] theorem State.send_refused (o : Output) : (s.send o).refused = s.refused := rfl
@[simp] theorem State.send_phase (o : Output) : (s.send o).phase = s.phase := rfl

/-! ### ok -/

@[simp] theorem State.ok_regs (v : Word) : (s.ok v).regs = s.regs := rfl
@[simp] theorem State.ok_sp (v : Word) : (s.ok v).sp = s.sp := rfl
@[simp] theorem State.ok_pc (v : Word) : (s.ok v).pc = s.pc := rfl
@[simp] theorem State.ok_mem (v : Word) : (s.ok v).mem = s.mem := rfl
@[simp] theorem State.ok_ctx (v : Word) : (s.ok v).ctx = s.ctx := rfl
@[simp] theorem State.ok_halted (v : Word) : (s.ok v).halted = s.halted := rfl
@[simp] theorem State.ok_cycle (v : Word) : (s.ok v).cycle = s.cycle := rfl
@[simp] theorem State.ok_svc (v : Word) : (s.ok v).svc = s.svc := rfl
@[simp] theorem State.ok_inbox (v : Word) : (s.ok v).inbox = s.inbox := rfl
@[simp] theorem State.ok_outbox (v : Word) : (s.ok v).outbox = .response ⟨.ok, .word v⟩ :: s.outbox := rfl
@[simp] theorem State.ok_refused (v : Word) : (s.ok v).refused = s.refused := rfl
@[simp] theorem State.ok_phase (v : Word) : (s.ok v).phase = s.phase := rfl

/-! ### okCount -/

@[simp] theorem State.okCount_regs (n : Nat) : (s.okCount n).regs = s.regs := rfl
@[simp] theorem State.okCount_sp (n : Nat) : (s.okCount n).sp = s.sp := rfl
@[simp] theorem State.okCount_pc (n : Nat) : (s.okCount n).pc = s.pc := rfl
@[simp] theorem State.okCount_mem (n : Nat) : (s.okCount n).mem = s.mem := rfl
@[simp] theorem State.okCount_ctx (n : Nat) : (s.okCount n).ctx = s.ctx := rfl
@[simp] theorem State.okCount_halted (n : Nat) : (s.okCount n).halted = s.halted := rfl
@[simp] theorem State.okCount_cycle (n : Nat) : (s.okCount n).cycle = s.cycle := rfl
@[simp] theorem State.okCount_svc (n : Nat) : (s.okCount n).svc = s.svc := rfl
@[simp] theorem State.okCount_inbox (n : Nat) : (s.okCount n).inbox = s.inbox := rfl
@[simp] theorem State.okCount_outbox (n : Nat) : (s.okCount n).outbox = .response ⟨.ok, .count n⟩ :: s.outbox := rfl
@[simp] theorem State.okCount_refused (n : Nat) : (s.okCount n).refused = s.refused := rfl
@[simp] theorem State.okCount_phase (n : Nat) : (s.okCount n).phase = s.phase := rfl

/-! ### badCommand -/

@[simp] theorem State.badCommand_regs (c : Cause) : (s.badCommand c).regs = s.regs := rfl
@[simp] theorem State.badCommand_sp (c : Cause) : (s.badCommand c).sp = s.sp := rfl
@[simp] theorem State.badCommand_pc (c : Cause) : (s.badCommand c).pc = s.pc := rfl
@[simp] theorem State.badCommand_mem (c : Cause) : (s.badCommand c).mem = s.mem := rfl
@[simp] theorem State.badCommand_ctx (c : Cause) : (s.badCommand c).ctx = s.ctx := rfl
@[simp] theorem State.badCommand_halted (c : Cause) : (s.badCommand c).halted = s.halted := rfl
@[simp] theorem State.badCommand_cycle (c : Cause) : (s.badCommand c).cycle = s.cycle := rfl
@[simp] theorem State.badCommand_svc (c : Cause) : (s.badCommand c).svc = s.svc := rfl
@[simp] theorem State.badCommand_inbox (c : Cause) : (s.badCommand c).inbox = s.inbox := rfl
@[simp] theorem State.badCommand_outbox (c : Cause) : (s.badCommand c).outbox = .response ⟨.err, .word c.code⟩ :: s.outbox := rfl
@[simp] theorem State.badCommand_refused (c : Cause) : (s.badCommand c).refused = true := rfl
@[simp] theorem State.badCommand_phase (c : Cause) : (s.badCommand c).phase = s.phase := rfl

/-! ### fetchByte -/

@[simp] theorem State.fetchByte_regs : s.fetchByte.2.regs = s.regs := rfl
@[simp] theorem State.fetchByte_sp : s.fetchByte.2.sp = s.sp := rfl
@[simp] theorem State.fetchByte_pc : s.fetchByte.2.pc = s.pc + 1 := rfl
@[simp] theorem State.fetchByte_mem : s.fetchByte.2.mem = s.mem := rfl
@[simp] theorem State.fetchByte_ctx : s.fetchByte.2.ctx = s.ctx := rfl
@[simp] theorem State.fetchByte_halted : s.fetchByte.2.halted = s.halted := rfl
@[simp] theorem State.fetchByte_cycle : s.fetchByte.2.cycle = s.cycle := rfl
@[simp] theorem State.fetchByte_svc : s.fetchByte.2.svc = s.svc := rfl
@[simp] theorem State.fetchByte_inbox : s.fetchByte.2.inbox = s.inbox := rfl
@[simp] theorem State.fetchByte_outbox : s.fetchByte.2.outbox = s.outbox := rfl
@[simp] theorem State.fetchByte_refused : s.fetchByte.2.refused = s.refused := rfl
@[simp] theorem State.fetchByte_phase : s.fetchByte.2.phase = s.phase := rfl

/-! ### fetchWord -/

@[simp] theorem State.fetchWord_regs : s.fetchWord.2.regs = s.regs := rfl
@[simp] theorem State.fetchWord_sp : s.fetchWord.2.sp = s.sp := rfl
@[simp] theorem State.fetchWord_pc : s.fetchWord.2.pc = s.pc + 1 + 1 := rfl
@[simp] theorem State.fetchWord_mem : s.fetchWord.2.mem = s.mem := rfl
@[simp] theorem State.fetchWord_ctx : s.fetchWord.2.ctx = s.ctx := rfl
@[simp] theorem State.fetchWord_halted : s.fetchWord.2.halted = s.halted := rfl
@[simp] theorem State.fetchWord_cycle : s.fetchWord.2.cycle = s.cycle := rfl
@[simp] theorem State.fetchWord_svc : s.fetchWord.2.svc = s.svc := rfl
@[simp] theorem State.fetchWord_inbox : s.fetchWord.2.inbox = s.inbox := rfl
@[simp] theorem State.fetchWord_outbox : s.fetchWord.2.outbox = s.outbox := rfl
@[simp] theorem State.fetchWord_refused : s.fetchWord.2.refused = s.refused := rfl
@[simp] theorem State.fetchWord_phase : s.fetchWord.2.phase = s.phase := rfl

/-! ### popByte -/

@[simp] theorem State.popByte_regs : s.popByte.2.regs = s.regs := rfl
@[simp] theorem State.popByte_sp : s.popByte.2.sp = s.sp + 1 := rfl
@[simp] theorem State.popByte_pc : s.popByte.2.pc = s.pc := rfl
@[simp] theorem State.popByte_mem : s.popByte.2.mem = s.mem := rfl
@[simp] theorem State.popByte_ctx : s.popByte.2.ctx = s.ctx := rfl
@[simp] theorem State.popByte_halted : s.popByte.2.halted = s.halted := rfl
@[simp] theorem State.popByte_cycle : s.popByte.2.cycle = s.cycle := rfl
@[simp] theorem State.popByte_svc : s.popByte.2.svc = s.svc := rfl
@[simp] theorem State.popByte_inbox : s.popByte.2.inbox = s.inbox := rfl
@[simp] theorem State.popByte_outbox : s.popByte.2.outbox = s.outbox := rfl
@[simp] theorem State.popByte_refused : s.popByte.2.refused = s.refused := rfl
@[simp] theorem State.popByte_phase : s.popByte.2.phase = s.phase := rfl

/-! ### popWord -/

@[simp] theorem State.popWord_regs : s.popWord.2.regs = s.regs := rfl
@[simp] theorem State.popWord_sp : s.popWord.2.sp = s.sp + 1 + 1 := rfl
@[simp] theorem State.popWord_pc : s.popWord.2.pc = s.pc := rfl
@[simp] theorem State.popWord_mem : s.popWord.2.mem = s.mem := rfl
@[simp] theorem State.popWord_ctx : s.popWord.2.ctx = s.ctx := rfl
@[simp] theorem State.popWord_halted : s.popWord.2.halted = s.halted := rfl
@[simp] theorem State.popWord_cycle : s.popWord.2.cycle = s.cycle := rfl
@[simp] theorem State.popWord_svc : s.popWord.2.svc = s.svc := rfl
@[simp] theorem State.popWord_inbox : s.popWord.2.inbox = s.inbox := rfl
@[simp] theorem State.popWord_outbox : s.popWord.2.outbox = s.outbox := rfl
@[simp] theorem State.popWord_refused : s.popWord.2.refused = s.refused := rfl
@[simp] theorem State.popWord_phase : s.popWord.2.phase = s.phase := rfl

/-! ### pushByte -/

@[simp] theorem State.pushByte_regs (v : Byte) : (s.pushByte v).regs = s.regs := rfl
@[simp] theorem State.pushByte_sp (v : Byte) : (s.pushByte v).sp = s.sp - 1 := rfl
@[simp] theorem State.pushByte_pc (v : Byte) : (s.pushByte v).pc = s.pc := rfl
@[simp] theorem State.pushByte_mem (v : Byte) : (s.pushByte v).mem = Memory.write s.mem (s.sp - 1).toNat v := rfl
@[simp] theorem State.pushByte_ctx (v : Byte) : (s.pushByte v).ctx = s.ctx := rfl
@[simp] theorem State.pushByte_halted (v : Byte) : (s.pushByte v).halted = s.halted := rfl
@[simp] theorem State.pushByte_cycle (v : Byte) : (s.pushByte v).cycle = s.cycle := rfl
@[simp] theorem State.pushByte_svc (v : Byte) : (s.pushByte v).svc = s.svc := rfl
@[simp] theorem State.pushByte_inbox (v : Byte) : (s.pushByte v).inbox = s.inbox := rfl
@[simp] theorem State.pushByte_outbox (v : Byte) : (s.pushByte v).outbox = s.outbox := rfl
@[simp] theorem State.pushByte_refused (v : Byte) : (s.pushByte v).refused = s.refused := rfl
@[simp] theorem State.pushByte_phase (v : Byte) : (s.pushByte v).phase = s.phase := rfl

/-! ### pushWord -/

@[simp] theorem State.pushWord_regs (v : Word) : (s.pushWord v).regs = s.regs := rfl
@[simp] theorem State.pushWord_sp (v : Word) : (s.pushWord v).sp = s.sp - 1 - 1 := rfl
@[simp] theorem State.pushWord_pc (v : Word) : (s.pushWord v).pc = s.pc := rfl
@[simp] theorem State.pushWord_mem (v : Word) : (s.pushWord v).mem = Memory.write (Memory.write s.mem (s.sp - 1).toNat (hi8 v)) (s.sp - 1 - 1).toNat (lo8 v) := rfl
@[simp] theorem State.pushWord_ctx (v : Word) : (s.pushWord v).ctx = s.ctx := rfl
@[simp] theorem State.pushWord_halted (v : Word) : (s.pushWord v).halted = s.halted := rfl
@[simp] theorem State.pushWord_cycle (v : Word) : (s.pushWord v).cycle = s.cycle := rfl
@[simp] theorem State.pushWord_svc (v : Word) : (s.pushWord v).svc = s.svc := rfl
@[simp] theorem State.pushWord_inbox (v : Word) : (s.pushWord v).inbox = s.inbox := rfl
@[simp] theorem State.pushWord_outbox (v : Word) : (s.pushWord v).outbox = s.outbox := rfl
@[simp] theorem State.pushWord_refused (v : Word) : (s.pushWord v).refused = s.refused := rfl
@[simp] theorem State.pushWord_phase (v : Word) : (s.pushWord v).phase = s.phase := rfl

/-! ### simulatedReturn -/

@[simp] theorem State.simulatedReturn_regs : s.simulatedReturn.regs = s.regs := rfl
@[simp] theorem State.simulatedReturn_sp : s.simulatedReturn.sp = s.sp + 1 + 1 := rfl
@[simp] theorem State.simulatedReturn_pc : s.simulatedReturn.pc = s.popWord.1 := rfl
@[simp] theorem State.simulatedReturn_mem : s.simulatedReturn.mem = s.mem := rfl
@[simp] theorem State.simulatedReturn_ctx : s.simulatedReturn.ctx = s.ctx := rfl
@[simp] theorem State.simulatedReturn_halted : s.simulatedReturn.halted = s.halted := rfl
@[simp] theorem State.simulatedReturn_cycle : s.simulatedReturn.cycle = s.cycle := rfl
@[simp] theorem State.simulatedReturn_svc : s.simulatedReturn.svc = s.svc := rfl
@[simp] theorem State.simulatedReturn_inbox : s.simulatedReturn.inbox = s.inbox := rfl
@[simp] theorem State.simulatedReturn_outbox : s.simulatedReturn.outbox = .response ⟨.ok, .word 0⟩ :: .response ⟨.ok, .word s.popWord.1⟩ :: s.outbox := rfl
@[simp] theorem State.simulatedReturn_refused : s.simulatedReturn.refused = s.refused := rfl
@[simp] theorem State.simulatedReturn_phase : s.simulatedReturn.phase = s.phase := rfl

/-! ### setPc -/

@[simp] theorem State.setPc_regs (v : Word) : (s.setPc v).regs = s.regs := rfl
@[simp] theorem State.setPc_sp (v : Word) : (s.setPc v).sp = s.sp := rfl
@[simp] theorem State.setPc_pc (v : Word) : (s.setPc v).pc = v := rfl
@[simp] theorem State.setPc_mem (v : Word) : (s.setPc v).mem = s.mem := rfl
@[simp] theorem State.setPc_ctx (v : Word) : (s.setPc v).ctx = s.ctx := rfl
@[simp] theorem State.setPc_halted (v : Word) : (s.setPc v).halted = s.halted := rfl
@[simp] theorem State.setPc_cycle (v : Word) : (s.setPc v).cycle = s.cycle := rfl
@[simp] theorem State.setPc_svc (v : Word) : (s.setPc v).svc = s.svc := rfl
@[simp] theorem State.setPc_inbox (v : Word) : (s.setPc v).inbox = s.inbox := rfl
@[simp] theorem State.setPc_outbox (v : Word) : (s.setPc v).outbox = s.outbox := rfl
@[simp] theorem State.setPc_refused (v : Word) : (s.setPc v).refused = s.refused := rfl
@[simp] theorem State.setPc_phase (v : Word) : (s.setPc v).phase = s.phase := rfl

/-! ### setPhase -/

@[simp] theorem State.setPhase_regs (ph : Phase) : (s.setPhase ph).regs = s.regs := rfl
@[simp] theorem State.setPhase_sp (ph : Phase) : (s.setPhase ph).sp = s.sp := rfl
@[simp] theorem State.setPhase_pc (ph : Phase) : (s.setPhase ph).pc = s.pc := rfl
@[simp] theorem State.setPhase_mem (ph : Phase) : (s.setPhase ph).mem = s.mem := rfl
@[simp] theorem State.setPhase_ctx (ph : Phase) : (s.setPhase ph).ctx = s.ctx := rfl
@[simp] theorem State.setPhase_halted (ph : Phase) : (s.setPhase ph).halted = s.halted := rfl
@[simp] theorem State.setPhase_cycle (ph : Phase) : (s.setPhase ph).cycle = s.cycle := rfl
@[simp] theorem State.setPhase_svc (ph : Phase) : (s.setPhase ph).svc = s.svc := rfl
@[simp] theorem State.setPhase_inbox (ph : Phase) : (s.setPhase ph).inbox = s.inbox := rfl
@[simp] theorem State.setPhase_outbox (ph : Phase) : (s.setPhase ph).outbox = s.outbox := rfl
@[simp] theorem State.setPhase_refused (ph : Phase) : (s.setPhase ph).refused = s.refused := rfl
@[simp] theorem State.setPhase_phase (ph : Phase) : (s.setPhase ph).phase = ph := rfl

/-! ### writeR16: a pair's two cells, or SP -/

@[simp] theorem State.writeR16_pc (m : Reg16) (v : Word) : (s.writeR16 m v).pc = s.pc := by cases m <;> rfl
@[simp] theorem State.writeR16_mem (m : Reg16) (v : Word) : (s.writeR16 m v).mem = s.mem := by cases m <;> rfl
@[simp] theorem State.writeR16_ctx (m : Reg16) (v : Word) : (s.writeR16 m v).ctx = s.ctx := by cases m <;> rfl
@[simp] theorem State.writeR16_halted (m : Reg16) (v : Word) : (s.writeR16 m v).halted = s.halted := by cases m <;> rfl
@[simp] theorem State.writeR16_cycle (m : Reg16) (v : Word) : (s.writeR16 m v).cycle = s.cycle := by cases m <;> rfl
@[simp] theorem State.writeR16_svc (m : Reg16) (v : Word) : (s.writeR16 m v).svc = s.svc := by cases m <;> rfl
@[simp] theorem State.writeR16_inbox (m : Reg16) (v : Word) : (s.writeR16 m v).inbox = s.inbox := by cases m <;> rfl
@[simp] theorem State.writeR16_outbox (m : Reg16) (v : Word) : (s.writeR16 m v).outbox = s.outbox := by cases m <;> rfl
@[simp] theorem State.writeR16_refused (m : Reg16) (v : Word) : (s.writeR16 m v).refused = s.refused := by cases m <;> rfl
@[simp] theorem State.writeR16_phase (m : Reg16) (v : Word) : (s.writeR16 m v).phase = s.phase := by cases m <;> rfl

/-! ### openWindow: every field but the window, the outbox and the mark -/

@[simp] theorem State.openWindow_regs (d : PortDir) (q : PortReq) : (s.openWindow d q).regs = s.regs := by
  unfold State.openWindow; split <;> rfl
@[simp] theorem State.openWindow_sp (d : PortDir) (q : PortReq) : (s.openWindow d q).sp = s.sp := by
  unfold State.openWindow; split <;> rfl
@[simp] theorem State.openWindow_pc (d : PortDir) (q : PortReq) : (s.openWindow d q).pc = s.pc := by
  unfold State.openWindow; split <;> rfl
@[simp] theorem State.openWindow_mem (d : PortDir) (q : PortReq) : (s.openWindow d q).mem = s.mem := by
  unfold State.openWindow; split <;> rfl
@[simp] theorem State.openWindow_ctx (d : PortDir) (q : PortReq) : (s.openWindow d q).ctx = s.ctx := by
  unfold State.openWindow; split <;> rfl
@[simp] theorem State.openWindow_halted (d : PortDir) (q : PortReq) : (s.openWindow d q).halted = s.halted := by
  unfold State.openWindow; split <;> rfl
@[simp] theorem State.openWindow_cycle (d : PortDir) (q : PortReq) : (s.openWindow d q).cycle = s.cycle := by
  unfold State.openWindow; split <;> rfl
@[simp] theorem State.openWindow_inbox (d : PortDir) (q : PortReq) : (s.openWindow d q).inbox = s.inbox := by
  unfold State.openWindow; split <;> rfl
@[simp] theorem State.openWindow_phase (d : PortDir) (q : PortReq) : (s.openWindow d q).phase = s.phase := by
  unfold State.openWindow; split <;> rfl

/-! ### dispatchChecks: the dispatcher only reads the block -/

@[simp] theorem dispatchChecks_regs (p : EnvParams) : (dispatchChecks p s).regs = s.regs := by
  unfold dispatchChecks; dsimp only; repeat' split
  all_goals rfl
@[simp] theorem dispatchChecks_sp (p : EnvParams) : (dispatchChecks p s).sp = s.sp := by
  unfold dispatchChecks; dsimp only; repeat' split
  all_goals rfl
@[simp] theorem dispatchChecks_pc (p : EnvParams) : (dispatchChecks p s).pc = s.pc := by
  unfold dispatchChecks; dsimp only; repeat' split
  all_goals rfl
@[simp] theorem dispatchChecks_mem (p : EnvParams) : (dispatchChecks p s).mem = s.mem := by
  unfold dispatchChecks; dsimp only; repeat' split
  all_goals rfl
@[simp] theorem dispatchChecks_ctx (p : EnvParams) : (dispatchChecks p s).ctx = s.ctx := by
  unfold dispatchChecks; dsimp only; repeat' split
  all_goals rfl
@[simp] theorem dispatchChecks_halted (p : EnvParams) : (dispatchChecks p s).halted = s.halted := by
  unfold dispatchChecks; dsimp only; repeat' split
  all_goals rfl
@[simp] theorem dispatchChecks_cycle (p : EnvParams) : (dispatchChecks p s).cycle = s.cycle := by
  unfold dispatchChecks; dsimp only; repeat' split
  all_goals rfl
@[simp] theorem dispatchChecks_svc (p : EnvParams) : (dispatchChecks p s).svc = s.svc := by
  unfold dispatchChecks; dsimp only; repeat' split
  all_goals rfl
@[simp] theorem dispatchChecks_inbox (p : EnvParams) : (dispatchChecks p s).inbox = s.inbox := by
  unfold dispatchChecks; dsimp only; repeat' split
  all_goals rfl
@[simp] theorem dispatchChecks_refused (p : EnvParams) : (dispatchChecks p s).refused = s.refused := by
  unfold dispatchChecks; dsimp only; repeat' split
  all_goals rfl

end Sys2Proof.Machine
end

