-- ==== Sys2Proof/Laws/Memory.lean ====
section
/-! SUPPORT. The laws of memory: a byte reads as last written, a write leaves every other byte alone, every operation keeps the canonical
form, and two canonical memories with the same bytes are the same list. -/

namespace Sys2Proof.Machine

/-! ## Reading after a write -/

theorem Memory.read_place (m : Memory) (a b : Nat) (v : Byte) :
    Memory.read (Memory.place a v m) b = if b = a then v else Memory.read m b := by
  induction m with
  | nil => simp [Memory.place, Memory.read, eq_comm]
  | cons c m ih =>
    obtain ⟨k, w⟩ := c
    simp only [Memory.place]
    split
    · simp [Memory.read, eq_comm]
    · split
      · subst a; by_cases h : b = k <;> simp [Memory.read, h, eq_comm]
      · simp only [Memory.read, ih]
        by_cases h : k = b
        · subst h; simp; omega
        · simp [h]

theorem Memory.read_filter_ne (m : Memory) (a b : Nat) :
    Memory.read (m.filter (fun c => c.1 != a)) b = if b = a then Config.memResetFill else Memory.read m b := by
  induction m with
  | nil => simp [Memory.read]
  | cons c m ih =>
    obtain ⟨k, w⟩ := c
    by_cases h : k = a
    · subst h; by_cases hb : b = k
      · simpa [hb] using ih
      · have hk : ¬ k = b := fun e => hb e.symm
        simpa [Memory.read, hb, hk] using ih
    · by_cases hb : b = a
      · subst hb; simpa [h, Memory.read] using ih
      · simp [h, Memory.read, ih, hb]

/-- The byte written reads back, and every other byte reads as before (R42). -/
theorem Memory.read_write (m : Memory) (a b : Nat) (v : Byte) :
    Memory.read (Memory.write m a v) b = if b = a then v else Memory.read m b := by
  unfold Memory.write
  split
  · next h => rw [Memory.read_filter_ne, h]
  · exact Memory.read_place m a b v

@[simp] theorem State.readByte_writeByte (s : State) (a b : Word) (v : Byte) :
    (s.writeByte a v).readByte b = if b = a then v else s.readByte b := by
  simp [State.readByte, Memory.read_write, BitVec.toNat_inj]

/-! ## Reads of states that differ outside memory -/

theorem State.readByte_congr {s t : State} (h : t.mem = s.mem) (a : Word) : t.readByte a = s.readByte a := by
  simp [State.readByte, h]

/-! ## The canonical form -/

theorem Memory.wfFrom_mono {m : Memory} {lo lo' : Nat} (h : Memory.wfFrom lo m = true) (hl : lo' ≤ lo) :
    Memory.wfFrom lo' m = true := by
  cases m with
  | nil => rfl
  | cons c m =>
    simp only [Memory.wfFrom, Bool.and_eq_true, decide_eq_true_eq] at h ⊢
    exact ⟨⟨⟨by omega, h.1.1.2⟩, h.1.2⟩, h.2⟩

theorem Memory.wfFrom_filter {m : Memory} {lo : Nat} (p : Host.Cell → Bool) (h : Memory.wfFrom lo m = true) :
    Memory.wfFrom lo (m.filter p) = true := by
  induction m generalizing lo with
  | nil => rfl
  | cons c m ih =>
    obtain ⟨k, w⟩ := c
    simp only [Memory.wfFrom, Bool.and_eq_true, decide_eq_true_eq] at h
    by_cases hp : p (k, w)
    · simp [hp, Memory.wfFrom, ih h.2, h.1.1.1, h.1.1.2]; simpa using h.1.2
    · simp only [hp, Bool.false_eq_true, not_false_eq_true, List.filter_cons_of_neg]
      exact Memory.wfFrom_mono (ih h.2) (by omega)

theorem Memory.wfFrom_place {m : Memory} {lo a : Nat} {v : Byte} (h : Memory.wfFrom lo m = true) (hl : lo ≤ a)
    (ha : a < Config.memSize) (hv : v ≠ Config.memResetFill) : Memory.wfFrom lo (Memory.place a v m) = true := by
  induction m generalizing lo with
  | nil => simp [Memory.place, Memory.wfFrom, hl, ha, hv]
  | cons c m ih =>
    obtain ⟨k, w⟩ := c
    simp only [Memory.wfFrom, Bool.and_eq_true, decide_eq_true_eq] at h
    simp only [Memory.place]
    split
    · next hk => simp [Memory.wfFrom, hl, ha, hv, h.1.1.2, h.2, Nat.succ_le_of_lt hk]; simpa using h.1.2
    · split
      · next hk => subst hk; simp [Memory.wfFrom, hl, ha, hv, h.2]
      · simp only [Memory.wfFrom, Bool.and_eq_true, decide_eq_true_eq]
        exact ⟨h.1, ih h.2 (by omega)⟩

/-- A write keeps the canonical form. -/
theorem Memory.wf_write {m : Memory} {a : Nat} {v : Byte} (h : m.wf = true) (ha : a < Config.memSize) :
    (Memory.write m a v).wf = true := by
  unfold Memory.write
  split
  · exact Memory.wfFrom_filter _ h
  · next hv => exact Memory.wfFrom_place h (Nat.zero_le _) ha hv

theorem addr_lt_memSize (a : Word) : a.toNat < Config.memSize := a.isLt

theorem State.wf_writeByte {s : State} {a : Word} {v : Byte} (h : s.mem.wf = true) :
    (s.writeByte a v).mem.wf = true := Memory.wf_write h (addr_lt_memSize a)

theorem State.wf_pushWord {s : State} {v : Word} (h : s.mem.wf = true) : (s.pushWord v).mem.wf = true :=
  Memory.wf_write (Memory.wf_write h (addr_lt_memSize _)) (addr_lt_memSize _)

/-! ## Canonical memories are equal when they read alike -/

theorem Memory.read_below {m : Memory} {lo a : Nat} (h : Memory.wfFrom lo m = true) (ha : a < lo) :
    Memory.read m a = Config.memResetFill := by
  induction m generalizing lo with
  | nil => rfl
  | cons c m ih =>
    obtain ⟨k, w⟩ := c
    simp only [Memory.wfFrom, Bool.and_eq_true, decide_eq_true_eq] at h
    have hk : k ≠ a := by omega
    simp [Memory.read, hk, ih h.2 (by omega)]

theorem Memory.read_above {m : Memory} {lo a : Nat} (h : Memory.wfFrom lo m = true) (ha : Config.memSize ≤ a) :
    Memory.read m a = Config.memResetFill := by
  induction m generalizing lo with
  | nil => rfl
  | cons c m ih =>
    obtain ⟨k, w⟩ := c
    simp only [Memory.wfFrom, Bool.and_eq_true, decide_eq_true_eq] at h
    have hk : k ≠ a := by have := h.1.1.2; omega
    simp [Memory.read, hk, ih h.2]

theorem Memory.eq_of_read_eq {m n : Memory} {lo : Nat} (hm : Memory.wfFrom lo m = true) (hn : Memory.wfFrom lo n = true)
    (h : ∀ a, Memory.read m a = Memory.read n a) : m = n := by
  induction m generalizing n lo with
  | nil =>
    cases n with
    | nil => rfl
    | cons c n =>
      obtain ⟨k, w⟩ := c
      simp [Memory.wfFrom] at hn
      have := h k
      simp [Memory.read] at this
      exact absurd this.symm hn.1.2
  | cons c m ih =>
    obtain ⟨k, w⟩ := c
    simp only [Memory.wfFrom, Bool.and_eq_true, decide_eq_true_eq, bne_iff_ne] at hm
    cases n with
    | nil =>
      have := h k
      simp [Memory.read] at this
      exact absurd this hm.1.2
    | cons c n =>
      obtain ⟨k', w'⟩ := c
      simp only [Memory.wfFrom, Bool.and_eq_true, decide_eq_true_eq, bne_iff_ne] at hn
      have hk : k = k' := by
        rcases Nat.lt_trichotomy k k' with hlt | heq | hgt
        · have := h k
          rw [Memory.read, if_pos rfl, Memory.read, if_neg (by omega), Memory.read_below hn.2 (by omega)] at this
          exact absurd this hm.1.2
        · exact heq
        · have := h k'
          rw [Memory.read, if_neg (by omega), Memory.read_below hm.2 (by omega), Memory.read, if_pos rfl] at this
          exact absurd this.symm hn.1.2
      subst hk
      have hw : w = w' := by simpa [Memory.read] using h k
      subst hw
      congr 1
      refine ih hm.2 hn.2 fun a => ?_
      by_cases ha : a < k + 1
      · rw [Memory.read_below hm.2 ha, Memory.read_below hn.2 ha]
      · have := h a
        rwa [Memory.read, if_neg (by omega), Memory.read, if_neg (by omega)] at this

/-- Two states with canonical memories that read alike at every address have the same memory. -/
theorem State.mem_eq_of_readByte_eq {s t : State} (hs : s.mem.wf = true) (ht : t.mem.wf = true)
    (h : ∀ a, t.readByte a = s.readByte a) : t.mem = s.mem := by
  refine Memory.eq_of_read_eq ht hs fun a => ?_
  by_cases ha : a < 65536
  · simpa [State.readByte, Nat.mod_eq_of_lt ha] using h (BitVec.ofNat 16 a)
  · rw [Memory.read_above ht (Nat.le_of_not_lt ha), Memory.read_above hs (Nat.le_of_not_lt ha)]

/-! ## The memory after reset -/

theorem Memory.read_uniform (fill : Byte) (n lo a : Nat) :
    Memory.read (Memory.uniform fill lo n) a = if lo ≤ a ∧ a < lo + n then fill else Config.memResetFill := by
  induction n generalizing lo with
  | zero => rw [if_neg (by omega)]; rfl
  | succ n ih =>
    rw [Memory.uniform, Memory.read, ih]
    by_cases h : lo = a
    · rw [if_pos h, if_pos (by omega)]
    · rw [if_neg h]; congr 1; rw [eq_iff_iff]; omega

theorem Memory.wfFrom_uniform {fill : Byte} (hf : fill ≠ Config.memResetFill) (n lo : Nat) (h : lo + n ≤ Config.memSize) :
    Memory.wfFrom lo (Memory.uniform fill lo n) = true := by
  induction n generalizing lo with
  | zero => rfl
  | succ n ih =>
    simp only [Memory.uniform, Memory.wfFrom, Bool.and_eq_true, decide_eq_true_eq, bne_iff_ne]
    exact ⟨⟨⟨Nat.le_refl _, by omega⟩, hf⟩, ih (lo + 1) (by omega)⟩

/-- Every byte of a filled memory is the fill (R26). -/
theorem Memory.read_filled (fill : Byte) {a : Nat} (h : a < Config.memSize) : Memory.read (Memory.filled fill) a = fill := by
  unfold Memory.filled
  split
  · next hf => exact hf.symm
  · rw [Memory.read_uniform, if_pos (by omega)]

/-- A filled memory is in its canonical form. -/
theorem Memory.wf_filled (fill : Byte) : (Memory.filled fill).wf = true := by
  unfold Memory.filled
  split
  · rfl
  · next hf => exact Memory.wfFrom_uniform hf _ 0 (by omega)

@[simp] theorem State.readByte_resetWith (fill : Byte) (g : RegFile) (sp pc a : Word) :
    (State.resetWith fill g sp pc).readByte a = fill := Memory.read_filled fill (addr_lt_memSize a)

end Sys2Proof.Machine
end

