-- ==== Sys2Proof/Laws/Ops.lean ====
section
/-! SUPPORT. One lemma per shared operation that says once everything it can do, for callers to cite instead of unfolding it: cells and pairs,
fetch, push and pop, the service window, the command port, the dispatcher, one step. -/

namespace Sys2Proof.Machine

/-! ## Bits -/

theorem toNat_pairWord (a b : Byte) : (pairWord a b).toNat = a.toNat * 256 + b.toNat := by
  have := a.isLt; have := b.isLt
  simp only [pairWord, BitVec.toNat_ofNat]; omega

theorem toNat_hi8 (v : Word) : (hi8 v).toNat = v.toNat / 256 := by
  have := v.isLt
  simp only [hi8, BitVec.extractLsb'_toNat, Nat.shiftRight_eq_div_pow]; omega

theorem toNat_lo8 (v : Word) : (lo8 v).toNat = v.toNat % 256 := by
  simp [lo8, BitVec.extractLsb'_toNat]

@[simp] theorem hi8_pairWord (a b : Byte) : hi8 (pairWord a b) = a := by
  have := b.isLt
  apply BitVec.eq_of_toNat_eq; rw [toNat_hi8, toNat_pairWord]; omega

@[simp] theorem lo8_pairWord (a b : Byte) : lo8 (pairWord a b) = b := by
  have := b.isLt
  apply BitVec.eq_of_toNat_eq; rw [toNat_lo8, toNat_pairWord]; omega

@[simp] theorem pairWord_hi8_lo8 (v : Word) : pairWord (hi8 v) (lo8 v) = v := by
  apply BitVec.eq_of_toNat_eq; rw [toNat_pairWord, toNat_hi8, toNat_lo8]; omega

/-! ## Byte cells and pairs -/

@[simp] theorem RegFile.get_set (g : RegFile) (n k : Reg8) (v : Byte) :
    (g.set n v).get k = if k = n then v else g.get k := by
  cases n <;> cases k <;> rfl

theorem RegFile.ext_get {g g' : RegFile} (h : ∀ n, g.get n = g'.get n) : g = g' := by
  obtain ⟨_, _, _, _, _, _, _, _, _, _, _, _⟩ := g
  obtain ⟨_, _, _, _, _, _, _, _, _, _, _, _⟩ := g'
  have h1 := h .a; have h2 := h .f; have h3 := h .b; have h4 := h .c; have h5 := h .d; have h6 := h .e
  have h7 := h .h; have h8 := h .l; have h9 := h .ixh; have h10 := h .ixl; have h11 := h .iyh; have h12 := h .iyl
  simp only [RegFile.get] at h1 h2 h3 h4 h5 h6 h7 h8 h9 h10 h11 h12
  simp only [*]

/-- A cell after a raw 16-bit write: the high byte in the pair's first cell, the low byte in its second, every other cell as before (R13). -/
theorem State.writeR16_get (s : State) (m : Reg16) (v : Word) (n : Reg8) :
    (s.writeR16 m v).regs.get n =
      match Reg16.halves m with
      | some (hi, lo) => if n = lo then lo8 v else if n = hi then hi8 v else s.regs.get n
      | none => s.regs.get n := by
  cases m <;> simp [State.writeR16, Reg16.halves]

@[simp] theorem State.writeR16_sp (s : State) (m : Reg16) (v : Word) :
    (s.writeR16 m v).sp = if m = .sp then v else s.sp := by
  cases m <;> rfl

/-- A 16-bit register reads back what was written to it (R11). -/
@[simp] theorem State.readR16_writeR16_self (s : State) (m : Reg16) (v : Word) : (s.writeR16 m v).readR16 m = v := by
  cases m <;> simp [State.writeR16, State.readR16, State.readR8, Reg16.halves]

/-- A raw write of one 16-bit register leaves every other as it was (R14). -/
theorem State.readR16_writeR16_of_ne (s : State) {m k : Reg16} (v : Word) (h : k ≠ m) :
    (s.writeR16 m v).readR16 k = s.readR16 k := by
  cases m <;> cases k <;>
    first
    | exact absurd rfl h
    | simp [State.writeR16, State.readR16, State.readR8, Reg16.halves]

/-! ## Fetch, push, pop -/

/-- What FETCH16 reads: the bytes at PC and at PC + 1, low byte first (R103). -/
theorem State.fetchWord_value (s : State) : s.fetchWord.1 = pairWord (s.readByte (s.pc + 1)) (s.readByte s.pc) := rfl

/-- What POP reads: the bytes at SP and at SP + 1, low byte first (R105). -/
theorem State.popWord_value (s : State) : s.popWord.1 = pairWord (s.readByte (s.sp + 1)) (s.readByte s.sp) := rfl

theorem word_sub_one_sub_one (a : Word) : a - 1 - 1 = a - 2 := by bv_omega

theorem word_add_one_add_one (a : Word) : a + 1 + 1 = a + 2 := by bv_omega

theorem word_sub_two_ne_sub_one (a : Word) : a - 2 ≠ a - 1 := by bv_omega

/-- What PUSH stores: the low byte at SP - 2, the high byte at SP - 1, and no other byte (R104, R107). -/
theorem State.readByte_pushWord (s : State) (v : Word) (a : Word) :
    (s.pushWord v).readByte a = if a = s.sp - 2 then lo8 v else if a = s.sp - 1 then hi8 v else s.readByte a := by
  simp only [State.readByte, State.pushWord_mem, Memory.read_write, BitVec.toNat_inj, word_sub_one_sub_one]

/-! ## The resolver -/

@[simp] theorem tr8_hl (n : Reg8) : tr8 .hl n = n := by cases n <;> rfl

@[simp] theorem tr16_hl (m : Reg16) : tr16 .hl m = m := by cases m <;> rfl

/-- Under an index context no name resolves to the literal H or L (R90). -/
theorem tr8_ne_literal {c : Selector} (h : c ≠ .hl) (n : Reg8) : tr8 c n ≠ .h ∧ tr8 c n ≠ .l := by
  cases c <;> cases n <;> simp_all [tr8]

/-- Under an index context no name resolves to the literal HL (R91). -/
theorem tr16_ne_literal {c : Selector} (h : c ≠ .hl) (m : Reg16) : tr16 c m ≠ .hl := by
  cases c <;> cases m <;> simp_all [tr16, selReg]

/-- The displacement always takes part (R92). -/
@[simp] theorem effDisp_eq (c : Ctx) : effDisp c = c.d := rfl

/-! ## The service window -/

/-- A port command either opens the window and sends its request, or is refused with cause 4 (R115). -/
theorem State.openWindow_cases (s : State) (d : PortDir) (q : PortReq) :
    (s.svc = none ∧ s.openWindow d q = { s with svc := some d, outbox := .portReq q :: s.outbox }) ∨
    ((∃ e, s.svc = some e) ∧ s.openWindow d q = s.badCommand .portBusy) := by
  unfold State.openWindow
  cases h : s.svc with
  | none => exact .inl ⟨rfl, rfl⟩
  | some e => exact .inr ⟨⟨e, rfl⟩, rfl⟩

/-- A completed read closes the window and responds with the handler's byte (R113). -/
theorem portDoneRead_cases {rv : Byte} {s t : State} (h : portDoneRead rv s = .next t) :
    s.svc = some .read ∧ t = { s with svc := none, outbox := .response ⟨.ok, .word (zext16 rv)⟩ :: s.outbox } := by
  unfold portDoneRead at h
  split at h
  · next hs => exact ⟨hs, (Host.Outcome.next.inj h).symm⟩
  · cases h

/-- A completed write closes the window and responds (R114). -/
theorem portDoneWrite_cases {s t : State} (h : portDoneWrite s = .next t) :
    s.svc = some .write ∧ t = { s with svc := none, outbox := .response ⟨.ok, .word 0⟩ :: s.outbox } := by
  unfold portDoneWrite at h
  split at h
  · next hs => exact ⟨hs, (Host.Outcome.next.inj h).symm⟩
  · cases h

/-! ## The command port -/

theorem receiveWord_of_ok {w : Cmd} {i : Instr} (h : decode w = .ok i) (s : State) : receiveWord w s = exec i s := by
  simp [receiveWord, h]

theorem receiveWord_of_error {w : Cmd} {c : Cause} (h : decode w = .error c) (s : State) :
    receiveWord w s = .next (s.badCommand c) := by
  simp [receiveWord, h]

/-- A word is performed as the command it decodes to, or refused with its cause (R73). -/
theorem receiveWord_cases (w : Cmd) (s : State) :
    (∃ i, decode w = .ok i ∧ receiveWord w s = exec i s) ∨
    (∃ c, decode w = .error c ∧ receiveWord w s = .next (s.badCommand c)) := by
  cases h : decode w with
  | ok i => exact .inl ⟨i, rfl, receiveWord_of_ok h s⟩
  | error c => exact .inr ⟨c, rfl, receiveWord_of_error h s⟩

/-! ## The dispatcher -/

theorem instrDone_cases {p : EnvParams} {s t : State} (h : instrDone p s = .next t) :
    s.svc = none ∧ s.phase = .running ∧ t = dispatchChecks p s := by
  unfold instrDone at h
  split at h
  · next hs hp => exact ⟨hs, hp, (Host.Outcome.next.inj h).symm⟩
  · cases h

/-- What the end of a service handler does (R138, R139). -/
theorem serviceDone_cases {v : Verdict} {s t : State} (h : serviceDone v s = .next t) :
    s.svc = none ∧
      ((∃ a, s.phase = .bios a ∧
          ((v = .stop ∧ t = s.setPhase (.ended .programExit)) ∨ (v = .continue ∧ t = s.setPhase .running))) ∨
        (s.phase = .bdos ∧
          ((v = .stop ∧ t = s.setPhase (.ended .serviceStop)) ∨
            (v = .continue ∧ t = s.simulatedReturn.setPhase .running)))) := by
  rcases hs : s.svc with _ | d
  · refine ⟨rfl, ?_⟩
    cases hp : s.phase with
    | running => simp [serviceDone, hs, hp] at h
    | ended e => simp [serviceDone, hs, hp] at h
    | bios a =>
      refine .inl ⟨a, rfl, ?_⟩
      cases v <;> simp only [serviceDone, hs, hp] at h
      · exact .inl ⟨rfl, (Host.Outcome.next.inj h).symm⟩
      · exact .inr ⟨rfl, (Host.Outcome.next.inj h).symm⟩
    | bdos =>
      refine .inr ⟨rfl, ?_⟩
      cases v <;> simp only [serviceDone, hs, hp] at h
      · exact .inl ⟨rfl, (Host.Outcome.next.inj h).symm⟩
      · exact .inr ⟨rfl, (Host.Outcome.next.inj h).symm⟩
  · simp [serviceDone, hs] at h

/-! ## One step -/

/-- Everything a step that goes on can be: no event to come, or the next event handled, with the run not ended. -/
theorem receive_cases {p : EnvParams} {s t : State} (h : receive p s = .next t) :
    s.phase.isEnded = false ∧
      ((s.inbox = [] ∧ t = s) ∨ ∃ e rest, s.inbox = e :: rest ∧ handleEvent p e { s with inbox := rest } = .next t) := by
  unfold receive at h
  split at h
  · cases h
  · next hp =>
    refine ⟨?_, ?_⟩
    · cases hph : s.phase with
      | ended e => exact absurd hph (hp e)
      | _ => rfl
    · split at h
      · next hi => exact .inl ⟨hi, (Host.Outcome.next.inj h).symm⟩
      · next e rest hi => exact .inr ⟨e, rest, hi, h⟩

theorem receive_of_event {p : EnvParams} {s : State} {e : Event} {rest : List Event} (hp : s.phase.isEnded = false)
    (hi : s.inbox = e :: rest) : receive p s = handleEvent p e { s with inbox := rest } := by
  unfold receive
  split
  · next hph => simp [hph, Phase.isEnded] at hp
  · simp [hi]

end Sys2Proof.Machine
end

