-- ==== Sys2Proof/Laws/Encoding.lean ====
section
/-! SUPPORT. The fields of an encoded instruction, a word's equality by its fields, masking by fields, and the name codes both ways. -/

namespace Sys2Proof

/-! ## A word is its fields (R60) -/

theorem toNat_opField (w : Cmd) : (opField w).toNat = w.toNat / 0x1000000 := by
  have := w.isLt
  simp only [opField, BitVec.extractLsb'_toNat, Nat.shiftRight_eq_div_pow]; omega

theorem toNat_bField (w : Cmd) : (bField w).toNat = w.toNat / 0x10000 % 256 := by
  simp only [bField, BitVec.extractLsb'_toNat, Nat.shiftRight_eq_div_pow]

theorem toNat_wField (w : Cmd) : (wField w).toNat = w.toNat % 0x10000 := by
  simp [wField, BitVec.extractLsb'_toNat]

theorem toNat_wHigh (w : Cmd) : (wHigh w).toNat = w.toNat / 256 % 256 := by
  simp only [wHigh, BitVec.extractLsb'_toNat, Nat.shiftRight_eq_div_pow]

theorem toNat_wLow (w : Cmd) : (wLow w).toNat = w.toNat % 256 := by
  simp [wLow, BitVec.extractLsb'_toNat]

theorem cmd_ext {w w' : Cmd} (ho : opField w = opField w') (hb : bField w = bField w') (hw : wField w = wField w') :
    w = w' := by
  have h1 := congrArg BitVec.toNat ho
  have h2 := congrArg BitVec.toNat hb
  have h3 := congrArg BitVec.toNat hw
  rw [toNat_opField, toNat_opField] at h1
  rw [toNat_bField, toNat_bField] at h2
  rw [toNat_wField, toNat_wField] at h3
  apply BitVec.eq_of_toNat_eq; omega

theorem wField_eq_iff (w w' : Cmd) : wField w = wField w' ↔ wHigh w = wHigh w' ∧ wLow w = wLow w' := by
  simp only [← BitVec.toNat_inj, toNat_wField, toNat_wHigh, toNat_wLow]; omega

theorem cmd_eq_iff (w w' : Cmd) :
    w = w' ↔ opField w = opField w' ∧ bField w = bField w' ∧ wHigh w = wHigh w' ∧ wLow w = wLow w' := by
  rw [← wField_eq_iff]
  exact ⟨fun h => by subst h; exact ⟨rfl, rfl, rfl⟩, fun h => cmd_ext h.1 h.2.1 h.2.2⟩

@[simp] theorem opField_and (w m : Cmd) : opField (w &&& m) = opField w &&& opField m := BitVec.extractLsb'_and

@[simp] theorem bField_and (w m : Cmd) : bField (w &&& m) = bField w &&& bField m := BitVec.extractLsb'_and

@[simp] theorem wHigh_and (w m : Cmd) : wHigh (w &&& m) = wHigh w &&& wHigh m := BitVec.extractLsb'_and

@[simp] theorem wLow_and (w m : Cmd) : wLow (w &&& m) = wLow w &&& wLow m := BitVec.extractLsb'_and

/-- A masked word, field by field. -/
theorem and_eq_iff (w m k : Cmd) :
    w &&& m = k ↔
      opField w &&& opField m = opField k ∧ bField w &&& bField m = bField k ∧
        wHigh w &&& wHigh m = wHigh k ∧ wLow w &&& wLow m = wLow k := by
  rw [cmd_eq_iff, opField_and, bField_and, wHigh_and, wLow_and]

/-! ## The fields of an encoded instruction -/

@[simp] theorem opField_encode (i : Instr) : opField (encode i) = i.opcode.code := by
  have h1 := i.opcode.code.isLt; have h2 := i.bOperand.isLt; have h3 := i.wOperand.isLt
  apply BitVec.eq_of_toNat_eq
  rw [toNat_opField, encode, BitVec.toNat_ofNat]; omega

@[simp] theorem bField_encode (i : Instr) : bField (encode i) = i.bOperand := by
  have h1 := i.opcode.code.isLt; have h2 := i.bOperand.isLt; have h3 := i.wOperand.isLt
  apply BitVec.eq_of_toNat_eq
  rw [toNat_bField, encode, BitVec.toNat_ofNat]; omega

@[simp] theorem wField_encode (i : Instr) : wField (encode i) = i.wOperand := by
  have h1 := i.opcode.code.isLt; have h2 := i.bOperand.isLt; have h3 := i.wOperand.isLt
  apply BitVec.eq_of_toNat_eq
  rw [toNat_wField, encode, BitVec.toNat_ofNat]; omega

@[simp] theorem wHigh_encode (i : Instr) : wHigh (encode i) = i.wOperand.extractLsb' 8 8 := by
  have h1 := i.opcode.code.isLt; have h2 := i.bOperand.isLt; have h3 := i.wOperand.isLt
  apply BitVec.eq_of_toNat_eq
  rw [toNat_wHigh, encode, BitVec.toNat_ofNat, BitVec.extractLsb'_toNat, Nat.shiftRight_eq_div_pow]; omega

@[simp] theorem wLow_encode (i : Instr) : wLow (encode i) = i.wOperand.extractLsb' 0 8 := by
  have h1 := i.opcode.code.isLt; have h2 := i.bOperand.isLt; have h3 := i.wOperand.isLt
  apply BitVec.eq_of_toNat_eq
  rw [toNat_wLow, encode, BitVec.toNat_ofNat, BitVec.extractLsb'_toNat]; simp; omega

/-! ## Name codes both ways (R63 to R65, R68) -/

@[simp] theorem Reg8.ofCode_code (r : Reg8) : Reg8.ofCode r.code = some r := by cases r <;> rfl

@[simp] theorem Reg16.ofCode_code (m : Reg16) : Reg16.ofCode m.code = some m := by cases m <;> rfl

@[simp] theorem Selector.ofCode_code (c : Selector) : Selector.ofCode c.code = some c := by cases c <;> rfl

@[simp] theorem Opcode.ofCode_code (o : Opcode) : Opcode.ofCode o.code = some o := by cases o <;> rfl

theorem Reg8.code_of_ofCode {c : Byte} {r : Reg8} (h : Reg8.ofCode c = some r) : r.code = c := by
  simpa using List.find?_some h

theorem Reg16.code_of_ofCode {c : Byte} {m : Reg16} (h : Reg16.ofCode c = some m) : m.code = c := by
  simpa using List.find?_some h

theorem Selector.code_of_ofCode {c : Byte} {s : Selector} (h : Selector.ofCode c = some s) : s.code = c := by
  simpa using List.find?_some h

theorem Opcode.code_of_ofCode {c : Byte} {o : Opcode} (h : Opcode.ofCode c = some o) : o.code = c := by
  simpa using List.find?_some h

/-- The reserved 8-bit names are the codes above 11 (R63). -/
theorem Reg8.ofCode_eq_none_iff (c : Byte) : Reg8.ofCode c = none ↔ 11 < c.toNat := by
  revert c; decide

/-- The reserved 16-bit names are the codes above 6 (R64). -/
theorem Reg16.ofCode_eq_none_iff (c : Byte) : Reg16.ofCode c = none ↔ 6 < c.toNat := by
  revert c; decide

/-- The reserved selectors are the codes but 3, 4, 5 (R65). -/
theorem Selector.ofCode_eq_none_iff (c : Byte) : Selector.ofCode c = none ↔ ¬ (3 ≤ c.toNat ∧ c.toNat ≤ 5) := by
  revert c; decide

/-! ## The decoder, case by case (R73) -/

theorem decode_eq_ok {w : Cmd} {o : Opcode} {i : Instr} (ho : opField w = o.code) (hm : o.format.mbzOk w = true)
    (hb : o.build w = some i) : decode w = .ok i := by
  simp [decode, ho, hm, hb]

theorem decode_eq_field {w : Cmd} {o : Opcode} (ho : opField w = o.code) (hm : o.format.mbzOk w = false) :
    decode w = .error .reservedField := by
  simp [decode, ho, hm]

theorem decode_eq_name {w : Cmd} {o : Opcode} (ho : opField w = o.code) (hm : o.format.mbzOk w = true)
    (hb : o.build w = none) : decode w = .error .reservedName := by
  simp [decode, ho, hm, hb]

theorem decode_eq_opcode {w : Cmd} (ho : Opcode.ofCode (opField w) = none) : decode w = .error .reservedOpcode := by
  simp [decode, ho]

/-- What the decoder answers, once and for all. -/
theorem decode_cases (w : Cmd) :
    (Opcode.ofCode (opField w) = none ∧ decode w = .error .reservedOpcode) ∨
    ∃ o : Opcode, opField w = o.code ∧
      ((o.format.mbzOk w = false ∧ decode w = .error .reservedField) ∨
        (o.format.mbzOk w = true ∧ o.build w = none ∧ decode w = .error .reservedName) ∨
        ∃ i, o.format.mbzOk w = true ∧ o.build w = some i ∧ decode w = .ok i) := by
  cases ho : Opcode.ofCode (opField w) with
  | none => exact .inl ⟨rfl, decode_eq_opcode ho⟩
  | some o =>
    have hc : opField w = o.code := (Opcode.code_of_ofCode ho).symm
    refine .inr ⟨o, hc, ?_⟩
    cases hm : o.format.mbzOk w with
    | false => exact .inl ⟨rfl, decode_eq_field hc hm⟩
    | true =>
      cases hb : o.build w with
      | none => exact .inr (.inl ⟨rfl, rfl, decode_eq_name hc hm hb⟩)
      | some i => exact .inr (.inr ⟨i, rfl, rfl, decode_eq_ok hc hm hb⟩)

/-! ## Words written as numbers -/

theorem opField_cmdWord (n : Nat) (h : n < 0x100000000) : (opField (Machine.cmdWord n)).toNat = n / 0x1000000 := by
  rw [toNat_opField, Machine.cmdWord, BitVec.toNat_ofNat]; omega

theorem bField_cmdWord (n : Nat) : (bField (Machine.cmdWord n)).toNat = n / 0x10000 % 256 := by
  rw [toNat_bField, Machine.cmdWord, BitVec.toNat_ofNat]; omega

theorem wField_cmdWord (n : Nat) : (wField (Machine.cmdWord n)).toNat = n % 0x10000 := by
  rw [toNat_wField, Machine.cmdWord, BitVec.toNat_ofNat]; omega

/-- The encoding as a number (R60). -/
theorem encode_eq_cmdWord (i : Instr) :
    encode i = Machine.cmdWord (i.opcode.code.toNat * 0x1000000 + i.bOperand.toNat * 0x10000 + i.wOperand.toNat) := rfl

end Sys2Proof
end

