-- ==== Sys2Proof/Laws/Loader.lean ====
section
/-! SUPPORT. Sequences of commands, one after the other, and what the loader's runs of writes leave in memory. -/

namespace Sys2Proof.Machine

/-! ## Sequences -/

theorem performAll_cons {i : Instr} {s t : State} (is : List Instr) (h : exec i s = .next t) :
    performAll (i :: is) s = performAll is t := by
  simp [performAll, h]

theorem performAll_append {is : List Instr} {s t : State} (js : List Instr) (h : performAll is s = .next t) :
    performAll (is ++ js) s = performAll js t := by
  induction is generalizing s with
  | nil => cases h; rfl
  | cons i is ih =>
    cases hu : exec i s with
    | next u =>
      rw [performAll_cons _ hu] at h
      rw [List.cons_append, performAll_cons _ hu, ih h]
    | fault r => simp [performAll, hu] at h
    | refused r => simp [performAll, hu] at h

/-! ## Overlays -/

@[simp] theorem overlay_nil (base : Word) (f : Word → Byte) (a : Word) : overlay base [] f a = f a := rfl

/-- The first byte of an overlay, then the rest one address on: bytes that do not go round the memory. -/
theorem overlay_cons {vs : List Byte} (base : Word) (v : Byte) (f : Word → Byte) (a : Word) (h : vs.length < 65536) :
    overlay base (v :: vs) f a = overlay (base + 1) vs (fun b => if b = base then v else f b) a := by
  unfold overlay
  by_cases e : a = base
  · subst e
    have : (a - (a + 1)).toNat = 65535 := by
      rw [show a - (a + 1) = (65535 : Word) by bv_omega]; rfl
    rw [this, List.getElem?_eq_none (l := vs) (by omega)]
    simp
  · have : (a - base).toNat = (a - (base + 1)).toNat + 1 := by bv_omega
    rw [this, List.getElem?_cons_succ]
    simp only [if_neg e]

/-- A byte outside an overlay is as it was. -/
theorem overlay_of_le {base : Word} {bytes : List Byte} {f : Word → Byte} {a : Word} (h : bytes.length ≤ (a - base).toNat) :
    overlay base bytes f a = f a := by
  rw [overlay, List.getElem?_eq_none h]; rfl

/-! ## Runs of writes -/

/-- A run of MEMWR goes on, changes nothing but memory and the responses, and overlays its bytes on the memory (R101, R162). -/
theorem performAll_writeBytes (bytes : List Byte) (a : Word) (s : State) :
    ∃ t, performAll (writeBytes a bytes) s = .next t ∧ t = { s with mem := t.mem, outbox := t.outbox } ∧
      (bytes.length ≤ 65536 → ∀ b, t.readByte b = overlay a bytes s.readByte b) := by
  induction bytes generalizing a s with
  | nil => exact ⟨s, rfl, rfl, fun _ _ => rfl⟩
  | cons v vs ih =>
    obtain ⟨t, h, hf, hr⟩ := ih (a + 1) ((s.writeByte a v).ok 0)
    refine ⟨t, (performAll_cons _ rfl).trans h, hf, fun hl b => ?_⟩
    have hl' : vs.length < 65536 := hl
    rw [hr (by omega), overlay_cons a v _ b hl']
    have : ((s.writeByte a v).ok 0).readByte = fun b => if b = a then v else s.readByte b :=
      funext fun b => State.readByte_writeByte s a b v
    rw [this]

end Sys2Proof.Machine
end

