-- ==== Sys2Proof/Laws/PerInstr.lean ====
section
/-! SUPPORT. The family TableRow: the word of an instruction lies in its own row of the opcode table (30_encoding.md R68): the row's match under
the row's mask, and the row's operand constraint. One lemma per constructor. -/

namespace Sys2Proof

/-- The operand constraint of a row looks at the two fields only. -/
theorem operandOk_names (w : Cmd) :
    Opcode.operandOk .get8 w = decide ((bField w).toNat ≤ 11) ∧ Opcode.operandOk .set8 w = decide ((bField w).toNat ≤ 11) ∧
      Opcode.operandOk .get16 w = decide ((bField w).toNat ≤ 6) ∧ Opcode.operandOk .set16 w = decide ((bField w).toNat ≤ 6) ∧
      Opcode.operandOk .setctx w = decide (3 ≤ (wLow w).toNat ∧ (wLow w).toNat ≤ 5) := ⟨rfl, rfl, rfl, rfl, rfl⟩

/-- The four bytes of each row's mask and match, most significant first. -/
theorem Opcode.mask_fields (o : Opcode) :
    opField o.mask = 0xFF ∧ opField o.matchBits = o.code ∧ bField o.matchBits = 0 ∧ wHigh o.matchBits = 0 ∧
      wLow o.matchBits = 0 := by
  cases o <;> decide

/-- A row's match and mask, byte by byte. -/
theorem Opcode.masked_iff (o : Opcode) (w : Cmd) :
    (w &&& o.mask) = o.matchBits ↔
      opField w = o.code ∧ bField w &&& bField o.mask = 0 ∧ wHigh w &&& wHigh o.mask = 0 ∧ wLow w &&& wLow o.mask = 0 := by
  obtain ⟨h1, h2, h3, h4, h5⟩ := o.mask_fields
  have h6 : ∀ x : Byte, x &&& 0xFF = x := fun x => by revert x; decide
  rw [and_eq_iff, h1, h2, h3, h4, h5, h6]

/-- A word admitted by a row: its masked bytes and its operand. -/
theorem Opcode.admits_iff (o : Opcode) (w : Cmd) :
    o.admits w = true ↔
      (opField w = o.code ∧ bField w &&& bField o.mask = 0 ∧ wHigh w &&& wHigh o.mask = 0 ∧ wLow w &&& wLow o.mask = 0) ∧
        o.operandOk w = true := by
  rw [Opcode.admits, Bool.and_eq_true, beq_iff_eq, Opcode.masked_iff]

end Sys2Proof

namespace Sys2Proof.Laws.TableRow

/-- The instruction's word is admitted by the row of its own command. -/
abbrev Statement (i : Instr) : Prop := i.opcode.admits (encode i) = true

/-- To be admitted: the operands the row masks are zero, and the constraint holds. -/
theorem of_fields (o : Opcode) {i : Instr} (ho : i.opcode = o) (hb : i.bOperand &&& bField o.mask = 0)
    (hh : i.wOperand.extractLsb' 8 8 &&& wHigh o.mask = 0) (hl : i.wOperand.extractLsb' 0 8 &&& wLow o.mask = 0)
    (hk : i.opcode.operandOk (encode i) = true) : Statement i := by
  subst ho
  refine (Opcode.admits_iff _ _).2 ⟨⟨opField_encode i, ?_, ?_, ?_⟩, hk⟩
  · rw [bField_encode]; exact hb
  · rw [wHigh_encode]; exact hh
  · rw [wLow_encode]; exact hl

theorem and_zero (x m : Byte) (h : m = 0) : x &&& m = 0 := by subst h; simp

theorem zero_and (x m : Byte) (h : x = 0) : x &&& m = 0 := by subst h; simp

theorem high_of_byte (v : Byte) (m : Byte) : (v.setWidth 16).extractLsb' 8 8 &&& m = 0 := by
  have h : (v.setWidth 16).extractLsb' 8 8 = 0 := by
    have := v.isLt
    apply BitVec.eq_of_toNat_eq
    simp only [BitVec.extractLsb'_toNat, Nat.shiftRight_eq_div_pow, BitVec.toNat_setWidth]
    show _ = 0
    omega
  rw [h]; simp

theorem get8 (r : Reg8) : Statement (.get8 r) := by
  cases r <;> rfl

theorem set8 (r : Reg8) (v : Byte) : Statement (.set8 r v) := by
  refine of_fields .set8 rfl (and_zero _ _ (by decide)) (high_of_byte v _) (and_zero _ _ (by decide)) ?_
  show decide ((bField (encode (.set8 r v))).toNat ≤ 11) = true
  rw [bField_encode]; cases r <;> rfl

theorem get16 (rr : Reg16) : Statement (.get16 rr) := by
  cases rr <;> rfl

theorem set16 (rr : Reg16) (v : Word) : Statement (.set16 rr v) := by
  refine of_fields .set16 rfl (and_zero _ _ (by decide)) (and_zero _ _ (by decide)) (and_zero _ _ (by decide)) ?_
  show decide ((bField (encode (.set16 rr v))).toNat ≤ 6) = true
  rw [bField_encode]; cases rr <;> rfl

theorem setctx (s : Selector) (d : Byte) : Statement (.setctx s d) := by
  refine of_fields .setctx rfl (and_zero _ _ (by decide)) (high_of_byte _ _) (and_zero _ _ (by decide)) ?_
  show decide (3 ≤ (wLow (encode (.setctx s d))).toNat ∧ (wLow (encode (.setctx s d))).toNat ≤ 5) = true
  rw [wLow_encode]; cases s <;> rfl

theorem getctx : Statement (.getctx) := by decide

theorem getind : Statement (.getind) := by decide

theorem setind (v : Byte) : Statement (.setind v) :=
  of_fields .setind rfl (and_zero _ _ (by decide)) (show (0 : Word).extractLsb' 8 8 &&& wHigh (Opcode.mask .setind) = 0 by decide)
    (show (0 : Word).extractLsb' 0 8 &&& wLow (Opcode.mask .setind) = 0 by decide) rfl

theorem memrd (a : Word) : Statement (.memrd a) := of_fields .memrd rfl (zero_and _ _ rfl) (and_zero _ _ (by decide)) (and_zero _ _ (by decide)) rfl

theorem memwr (a : Word) (v : Byte) : Statement (.memwr a v) := of_fields .memwr rfl (and_zero _ _ (by decide)) (and_zero _ _ (by decide)) (and_zero _ _ (by decide)) rfl

theorem fetch8 : Statement (.fetch8) := by decide

theorem fetch16 : Statement (.fetch16) := by decide

theorem push (v : Word) : Statement (.push v) := of_fields .push rfl (zero_and _ _ rfl) (and_zero _ _ (by decide)) (and_zero _ _ (by decide)) rfl

theorem pop : Statement (.pop) := by decide

theorem getpc : Statement (.getpc) := by decide

theorem setpc (v : Word) : Statement (.setpc v) := of_fields .setpc rfl (zero_and _ _ rfl) (and_zero _ _ (by decide)) (and_zero _ _ (by decide)) rfl

theorem portrd (p : Word) : Statement (.portrd p) := of_fields .portrd rfl (zero_and _ _ rfl) (and_zero _ _ (by decide)) (and_zero _ _ (by decide)) rfl

theorem portwr (p : Word) (v : Byte) : Statement (.portwr p v) := of_fields .portwr rfl (and_zero _ _ (by decide)) (and_zero _ _ (by decide)) (and_zero _ _ (by decide)) rfl

theorem sethalt : Statement (.sethalt) := by decide

theorem gethalt : Statement (.gethalt) := by decide

theorem addcyc (n : Word) : Statement (.addcyc n) := of_fields .addcyc rfl (zero_and _ _ rfl) (and_zero _ _ (by decide)) (and_zero _ _ (by decide)) rfl

theorem getcyc : Statement (.getcyc) := by decide

end Sys2Proof.Laws.TableRow
end

