-- ==== Sys2Proof/Tests/Slice0.lean ====
section
/-! SUPPORT. The model's own tests. Expected values are those of spec/95_test_vectors.md (V, T and P numbers), and of the encodings and examples of the
rules; then, for each statement with hypotheses, a concrete state and operands that meet them (witness_<name>). -/

namespace Sys2Proof.Machine.Tests

/-- The state a step goes on with, if it does. -/
def nextOf (o : Host.Outcome State Fault Refusal) : Option State :=
  match o with
  | .next t => some t
  | _ => none

/-- One instruction from a state, seen through `f`. -/
def after {α : Type} (i : Instr) (s : State) (f : State → α) : Option α := (nextOf (exec i s)).map f

/-- S0 of 95_test_vectors.md. -/
def s0 : State := State.reset

/-- S0 with a context and the pairs HL, IX, IY. -/
def indexed (sel : Selector) (d : Byte) (hl ix iy : Word) : State :=
  { s0 with
    ctx := ⟨sel, d⟩
    regs := { RegFile.zero with
      h := hi8 hl, l := lo8 hl, ixh := hi8 ix, ixl := lo8 ix, iyh := hi8 iy, iyl := lo8 iy } }

/-- S0 with PC, SP and memory bytes in their canonical order. -/
def placed (pc sp : Word) (mem : Memory) : State := { s0 with pc := pc, sp := sp, mem := mem }

/-- The example parameters of 95_test_vectors.md 2.6; the command-processor base is set so that two bytes just fit. -/
def exampleEnv : EnvParams where
  ccpBase := 0xFFFE
  tpaBase := 0x0100
  tpaStack := 0xFF00
  bdosEntry := 0x0005
  biosRegion := (List.range 0x33).map (fun k => 0xFA00 + BitVec.ofNat 16 k)
  biosExit := 0xFA00
  paramBuf := 0x0080
  fcb1 := 0x005C
  fcb2 := 0x006C
  stackPrepInModeA := false

/-! ## WellFormed: one ill-formed word for each check (R69, R70, R71) -/

theorem wf_accepts_get8 : wellFormed 0x010B0000 = true := by decide
theorem wf_refuses_reserved_opcode : wellFormed 0x05000000 = false := by decide
theorem wf_refuses_nonzero_field : wellFormed 0x20010100 = false := by decide
theorem wf_refuses_reserved_8_bit_name : wellFormed 0x010C0000 = false := by decide
theorem wf_refuses_reserved_16_bit_name : wellFormed 0x04070000 = false := by decide
theorem wf_refuses_reserved_selector : wellFormed 0x10000006 = false := by decide
theorem wf_refuses_low_selector : wellFormed 0x10000002 = false := by decide

/-- No two rows of the table admit a word in common: their opcodes differ and every mask covers the opcode. -/
theorem wf_rows_disjoint :
    (Opcode.all.map Opcode.matchBits).Nodup ∧ ∀ o ∈ Opcode.all, o.mask &&& 0xFF000000 = 0xFF000000 := by decide

/-! ## Decoding: a word written out from the spec for every constructor -/

theorem decode_get8 : decode 0x01060000 = .ok (.get8 .h) := by decide
theorem decode_set8 : decode 0x0207005A = .ok (.set8 .l 0x5A) := by decide
theorem decode_get16 : decode 0x03040000 = .ok (.get16 .ix) := by decide
theorem decode_set16 : decode 0x0406FFFF = .ok (.set16 .sp 0xFFFF) := by decide
theorem decode_setctx : decode 0x10FD0005 = .ok (.setctx .iy 0xFD) := by decide
theorem decode_clrctx : decode 0x10000003 = .ok Instr.clrctx := by decide
theorem decode_getctx : decode 0x11000000 = .ok .getctx := by decide
theorem decode_getind : decode 0x12000000 = .ok .getind := by decide
theorem decode_setind : decode 0x139C0000 = .ok (.setind 0x9C) := by decide
theorem decode_memrd : decode 0x20000100 = .ok (.memrd 0x0100) := by decide
theorem decode_memwr : decode 0x2176FFFF = .ok (.memwr 0xFFFF 0x76) := by decide
theorem decode_fetch8 : decode 0x22000000 = .ok .fetch8 := by decide
theorem decode_fetch16 : decode 0x23000000 = .ok .fetch16 := by decide
theorem decode_push : decode 0x2400BEEF = .ok (.push 0xBEEF) := by decide
theorem decode_pop : decode 0x25000000 = .ok .pop := by decide
theorem decode_getpc : decode 0x30000000 = .ok .getpc := by decide
theorem decode_setpc : decode 0x31000100 = .ok (.setpc 0x0100) := by decide
theorem decode_portrd : decode 0x32000010 = .ok (.portrd 0x0010) := by decide
theorem decode_portwr : decode 0x33410001 = .ok (.portwr 0x0001 0x41) := by decide
theorem decode_sethalt : decode 0x34000000 = .ok .sethalt := by decide
theorem decode_gethalt : decode 0x35000000 = .ok .gethalt := by decide
theorem decode_addcyc : decode 0x3600FFFF = .ok (.addcyc 0xFFFF) := by decide
theorem decode_getcyc : decode 0x37000000 = .ok .getcyc := by decide

/-- All twelve 8-bit names in the order of R63, and the seven 16-bit names in the order of R64. -/
theorem decode_names :
    (List.range 12).map (fun k => Reg8.ofCode (BitVec.ofNat 8 k)) =
      [Reg8.a, .f, .b, .c, .d, .e, .h, .l, .ixh, .ixl, .iyh, .iyl].map some ∧
    (List.range 7).map (fun k => Reg16.ofCode (BitVec.ofNat 8 k)) =
      [Reg16.af, .bc, .de, .hl, .ix, .iy, .sp].map some := by decide

theorem decode_refuses_opcodes_v90_to_v96 :
    [0x00000000, 0xFFFFFFFF, 0x05000000, 0x14000000, 0x26000000, 0x38000000, 0x05FFFFFF].map decode =
      List.replicate 7 (.error .reservedOpcode) := by decide
theorem decode_refuses_fields_first :
    [0x010C0001, 0x11000001, 0x11010000, 0x10000103, 0x10000106, 0x01FF0001, 0x0207015A].map decode =
      List.replicate 7 (.error .reservedField) := by decide
theorem decode_refuses_names :
    [0x010C0000, 0x03070000, 0x04070000, 0x02FF0000, 0x10000006, 0x10000000].map decode =
      List.replicate 6 (.error .reservedName) := by decide

/-- R61: `OK` is encoded 0, `ERR` 1. -/
theorem status_codes : Status.ok.code = 0 ∧ Status.err.code = 1 := by decide

theorem table_word_set16 : decodeTableWord 32 0x04011234 = some (.set16 .bc 0x1234) := by decide
theorem table_word_refused : decodeTableWord 32 0x38000000 = none := by decide
theorem fetch_word_runs : nextOf (step (s0.withFetchWord 32 0x34000000)) = some { s0 with halted := true, outbox := [okReply 0] } := by
  decide

/-! ## Register access -/

theorem test_get8_zero_extends_v2 :
    after (.get8 .a) { s0 with regs := { RegFile.zero with a := 0xFF } } (·.outbox) = some [okReply 0x00FF] := by decide
theorem test_get8_index_half_by_own_name_v12 : after (.get8 .ixh) (indexed .iy 0 0 0 0xC000) (·.outbox) = some [okReply 0] := by
  decide
theorem test_set8_displacement_plays_no_part_v13 :
    after (.set8 .h 0x01) (indexed .ix 0x7F 0 0 0) (·.regs) = some { RegFile.zero with ixh := 0x01 } := by decide
theorem test_set8_flags_keeps_all_bits_v6 : after (.set8 .f 0xD7) s0 (·.regs) = some { RegFile.zero with f := 0xD7 } := by decide
theorem test_get16_hl_redirected_v8 : after (.get16 .hl) (indexed .ix 0 0x1122 0xAABB 0) (·.outbox) = some [okReply 0xAABB] := by
  decide
theorem test_get16_af_v6 :
    after (.get16 .af) { s0 with regs := { RegFile.zero with a := 0x01, f := 0xD7 } } (·.outbox) = some [okReply 0x01D7] := by decide
theorem test_set16_bc_v4 : after (.set16 .bc 0x1234) s0 (·.regs) = some { RegFile.zero with b := 0x12, c := 0x34 } := by decide
theorem test_set16_hl_under_iy_v11 :
    after (.set16 .hl 0xC0DE) (indexed .iy 0 0x1122 0 0) (·.regs) =
      some { RegFile.zero with h := 0x11, l := 0x22, iyh := 0xC0, iyl := 0xDE } := by decide

/-! ## Addressing context -/

theorem test_setctx_v33 : after (.setctx .iy 0xFD) s0 (·.ctx) = some ⟨.iy, 0xFD⟩ := by decide
theorem test_getctx_reset_v30 : after .getctx s0 (·.outbox) = some [okReply 0x0003] := by decide
theorem test_getctx_v33 : after .getctx (indexed .iy 0xFD 0 0 0) (·.outbox) = some [okReply 0xFD05] := by decide
theorem test_getind_negative_wraps_v36 :
    after .getind { indexed .ix 0xFB 0 0x0002 0 with mem := [(0xFFFD, 0x42)] } (·.outbox) = some [okReply 0x0042] := by decide
theorem test_getind_displacement_under_hl_v41 :
    after .getind { indexed .hl 2 0x4000 0 0 with mem := [(0x4002, 0x33)] } (·.outbox) = some [okReply 0x0033] := by decide
theorem test_setind_most_negative_v37 : after (.setind 0x01) (indexed .iy 0x80 0 0 0x8000) (·.mem) = some [(0x7F80, 0x01)] := by decide
theorem test_setind_wraps_v38 : after (.setind 0x02) (indexed .ix 0x7F 0 0xFFFF 0) (·.mem) = some [(0x007E, 0x02)] := by decide

/-! ## Memory, fetch, stack -/

/-- A fill other than the default (U2). -/
theorem test_reset_with_other_fill : (State.resetWith 0xE5 RegFile.zero 0 0).readByte 0x0002 = 0xE5 := by decide

theorem test_memrd_reset_fill_v50 : after (.memrd 0x0000) s0 (·.outbox) = some [okReply 0] := by decide
theorem test_memrd_top_v51 : after (.memrd 0xFFFF) (placed 0 0 [(0xFFFF, 0x76)]) (·.outbox) = some [okReply 0x0076] := by decide
theorem test_memwr_keeps_order : after (.memwr 0x0100 0xC3) (placed 0 0 [(0x0001, 1), (0xFFFF, 0x76)]) (·.mem) =
    some [(0x0001, 1), (0x0100, 0xC3), (0xFFFF, 0x76)] := by decide
theorem test_memwr_fill_unlists : after (.memwr 0x0100 0x00) (placed 0 0 [(0x0100, 0xC3)]) (·.mem) = some [] := by decide
theorem test_fetch8_wraps_v54 :
    after .fetch8 (placed 0xFFFF 0 [(0xFFFF, 0xCD)]) (fun t => (t.outbox, t.pc)) = some ([okReply 0x00CD], 0x0000) := by decide
theorem test_fetch16_wraps_v55 :
    after .fetch16 (placed 0xFFFF 0 [(0x0000, 0x34), (0xFFFF, 0xCD)]) (fun t => (t.outbox, t.pc)) =
      some ([okReply 0x34CD], 0x0001) := by decide
theorem test_fetch16_odd_v57 :
    after .fetch16 (placed 0x0101 0 [(0x0101, 0x34), (0x0102, 0x12)]) (fun t => (t.outbox, t.pc)) =
      some ([okReply 0x1234], 0x0103) := by decide
theorem test_push_v58 :
    after (.push 0xBEEF) (placed 0 0x2000 []) (fun t => (t.mem, t.sp)) = some ([(0x1FFE, 0xEF), (0x1FFF, 0xBE)], 0x1FFE) := by decide
theorem test_push_wraps_v60 :
    after (.push 0xBEEF) (placed 0 0x0001 []) (fun t => (t.mem, t.sp)) = some ([(0x0000, 0xBE), (0xFFFF, 0xEF)], 0xFFFF) := by decide
theorem test_pop_wraps_v62 :
    after .pop (placed 0 0xFFFF [(0x0000, 0xBE), (0xFFFF, 0xEF)]) (fun t => (t.outbox, t.sp)) =
      some ([okReply 0xBEEF], 0x0001) := by decide
theorem test_pop_leaves_memory_v59 :
    after .pop (placed 0 0x1FFE [(0x1FFE, 0xEF), (0x1FFF, 0xBE)]) (·.mem) = some [(0x1FFE, 0xEF), (0x1FFF, 0xBE)] := by decide

/-! ## Control, ports, system -/

theorem test_getpc_v70 : after .getpc (placed 0x0100 0 []) (·.outbox) = some [okReply 0x0100] := by decide
theorem test_setpc_v71 : after (.setpc 0xFFFF) s0 (fun t => (t.outbox, t.pc)) = some ([okReply 0], 0xFFFF) := by decide
theorem test_portrd_opens_window_v74 :
    after (.portrd 0x0010) s0 (fun t => (t.svc, t.outbox)) = some (some .read, [.portReq (.read 0x0010)]) := by decide
theorem test_portrd_in_window_v77 :
    after (.portrd 0x0001) { s0 with svc := some .read } (fun t => (t.svc, t.outbox)) = some (some .read, [errReply 4]) := by decide
theorem test_portwr_opens_window_v75 :
    after (.portwr 0x0001 0x41) s0 (fun t => (t.svc, t.outbox)) = some (some .write, [.portReq (.write 0x0001 0x41)]) := by decide
theorem test_port_done_read_v76 :
    (nextOf (portDoneRead 0x0D { s0 with svc := some .read })).map (fun t => (t.svc, t.outbox)) = some (none, [okReply 0x000D]) := by
  decide
theorem test_port_done_write_v75 :
    (nextOf (portDoneWrite { s0 with svc := some .write })).map (fun t => (t.svc, t.outbox)) = some (none, [okReply 0]) := by decide
theorem test_port_done_wrong_direction : nextOf (portDoneWrite { s0 with svc := some .read }) = none := by decide
theorem test_refused_word_in_window_v78 :
    (nextOf (receiveWord 0x32010010 { s0 with svc := some .read })).map (·.outbox) = some [errReply 2] := by decide
theorem test_sethalt_v80 : after .sethalt s0 (·.halted) = some true := by decide
theorem test_gethalt_reset_v79 : after .gethalt s0 (·.outbox) = some [okReply 0] := by decide
theorem test_gethalt_v80 : after .gethalt { s0 with halted := true } (·.outbox) = some [okReply 1] := by decide
theorem test_addcyc_beyond_16_bits_v84 : after (.addcyc 0xFFFF) { s0 with cycle := 65535 } (·.cycle) = some 131070 := by decide
theorem test_getcyc_v84 :
    after .getcyc { s0 with cycle := 131070 } (·.outbox) = some [.response ⟨.ok, .count 131070⟩] := by decide

/-! ## Dispatcher and loader, with the example parameters (V110 to V116) -/

theorem test_dispatch_halt_first_v110 :
    (dispatchChecks exampleEnv { placed 0x0005 0 [] with halted := true }).phase = .ended .haltAbort := by decide
theorem test_dispatch_bios_v111 : (dispatchChecks exampleEnv (placed 0xFA00 0 [])).phase = .bios 0xFA00 := by decide
theorem test_dispatch_bios_last_address : (dispatchChecks exampleEnv (placed 0xFA32 0 [])).phase = .bios 0xFA32 := by decide
theorem test_dispatch_beyond_bios : (dispatchChecks exampleEnv (placed 0xFA33 0 [])).phase = .running := by decide
theorem test_dispatch_bdos_v113 :
    (dispatchChecks exampleEnv (placed 0x0005 0 [])).phase = .bdos ∧
      (dispatchChecks exampleEnv (placed 0x0005 0 [])).outbox = [okReply 0x0005, okReply 0] := by decide
theorem test_dispatch_runaway_v114 : (dispatchChecks exampleEnv (placed 0x0004 0 [])).phase = .ended .runawayAbort := by decide
theorem test_dispatch_none_v115 : (dispatchChecks exampleEnv (placed 0x0006 0 [])).phase = .running := by decide
theorem test_bdos_returns_v113 :
    (nextOf (serviceDone .continue { placed 0x0005 0xFEFE [(0xFEFE, 0x03), (0xFEFF, 0x01)] with phase := .bdos })).map
      (fun t => (t.pc, t.sp, t.phase)) = some (0x0103, 0xFF00, .running) := by decide
theorem test_bios_exit_v111 :
    (nextOf (serviceDone .stop { s0 with phase := .bios 0xFA00 })).map (·.phase) = some (.ended .programExit) := by decide
theorem test_no_step_after_the_end : step { s0 with phase := .ended .haltAbort } = .fault (.runEnded .haltAbort) := rfl
theorem test_loader_words_v116 :
    (loaderCommands exampleEnv ⟨.transient [0xC3, 0x00, 0x01], none, [], []⟩).map encode =
      [0x21C30100, 0x21000101, 0x21010102, 0x2100FF00, 0x2100FF01, 0x0406FF00, 0x31000100] := by decide
theorem test_loader_counts_tail :
    marshalCommands exampleEnv ⟨.transient [], some [0x41, 0x42], [], []⟩ =
      [.memwr 0x0080 2, .memwr 0x0081 0x41, .memwr 0x0082 0x42] := by decide

/-! ## Witnesses: a concrete state and operands for the hypotheses of every statement that has any -/

/-- A word that arrives next, outside every window. -/
def arriving (w : Cmd) : State := { s0 with inbox := [.command w] }

theorem witness_StepPerformsDecodedCommand :
    (arriving 0x22000000).phase.isEnded = false ∧ (arriving 0x22000000).inbox = .command 0x22000000 :: [] ∧
      decode 0x22000000 = .ok .fetch8 := by decide

theorem witness_RefusedWordChangesNothing :
    (arriving 0xFFFFFFFF).phase.isEnded = false ∧ (arriving 0xFFFFFFFF).inbox = .command 0xFFFFFFFF :: [] ∧
      decode 0xFFFFFFFF = .error .reservedOpcode := by decide

theorem witness_RefusedWordChangesNothing_busy :
    ({ arriving 0x33410001 with svc := some .read } : State).svc ≠ none ∧
      ∃ i, decode 0x33410001 = .ok i ∧ IsPort i := ⟨by decide, .portwr 0x0001 0x41, by decide, trivial⟩

theorem witness_RefusalMarkIsExact : (nextOf (step (arriving 0x010C0000))).map (·.refused) = some true := by decide

theorem witness_LowestCauseIsReported_opcode :
    (arriving 0x38000000).phase.isEnded = false ∧ (arriving 0x38000000).inbox = [.command 0x38000000] ∧
      ∀ o ∈ Opcode.all, o.isOpcodeOf 0x38000000 = false := by decide

/-- V97: a word with two defects meets the second clause and not the third. -/
theorem witness_LowestCauseIsReported_field :
    Opcode.get8.isOpcodeOf 0x010C0001 = true ∧ Opcode.get8.fieldsOk 0x010C0001 = false := by decide

theorem witness_LowestCauseIsReported_name :
    Opcode.get8.isOpcodeOf 0x010C0000 = true ∧ Opcode.get8.fieldsOk 0x010C0000 = true ∧
      Opcode.get8.operandOk 0x010C0000 = false := by decide

theorem witness_LowestCauseIsReported_busy :
    Opcode.portrd.isOpcodeOf 0x32000001 = true ∧ Opcode.portrd.fieldsOk 0x32000001 = true ∧
      Opcode.portrd.operandOk 0x32000001 = true ∧ ({ arriving 0x32000001 with svc := some .read } : State).svc ≠ none := by decide

/-- The last legal name, and a port command outside a window, meet the last clause. -/
theorem witness_LowestCauseIsReported_performed :
    (Opcode.get8.isOpcodeOf 0x010B0000 = true ∧ Opcode.get8.fieldsOk 0x010B0000 = true ∧
      Opcode.get8.operandOk 0x010B0000 = true ∧ ¬ ((Opcode.get8 = .portrd ∨ Opcode.get8 = .portwr) ∧ s0.svc ≠ none)) ∧
    Opcode.portrd.fieldsOk 0x32000001 = true ∧ ¬ ((Opcode.portrd = .portrd ∨ Opcode.portrd = .portwr) ∧ s0.svc ≠ none) := by
  decide

theorem witness_EncodeOfDecode : decode 0x107F0004 = .ok (.setctx .ix 0x7F) := by decide

theorem witness_DecoderAcceptsExactlyTheTable : Opcode.setctx.admits 0x10800005 = true := by decide

/-- For each opcode that `FieldRefusals` speaks of, a word of it with one must-be-zero bit set, by the mask of its format. -/
theorem witness_FieldRefusals :
    ([0x01000001, 0x03000001, 0x13000001].all fun w : Cmd => w &&& 0x0000FFFF != 0) = true ∧
    ([0x02000100, 0x10000103].all fun w : Cmd => w &&& 0x0000FF00 != 0) = true ∧
    ([0x20010000, 0x24010000, 0x31010000, 0x32010000, 0x36010000].all fun w : Cmd => w &&& 0x00FF0000 != 0) = true ∧
    ([0x11000001, 0x12000001, 0x22000001, 0x23010000, 0x25010000].all fun w : Cmd => w &&& 0x00FFFFFF != 0) = true ∧
    ([0x30000001, 0x34000001, 0x35000001, 0x37800000].all fun w : Cmd => w &&& 0x00FFFFFF != 0) = true := by decide

/-- The first reserved name of each name space, and the selectors next to the legal ones (R71). -/
theorem witness_NameRefusals :
    (12 ≤ ((0x010C0000 : Cmd).extractLsb' 16 8).toNat ∧ (0x010C0000 : Cmd) &&& 0x0000FFFF = 0) ∧
    (12 ≤ ((0x020C00FF : Cmd).extractLsb' 16 8).toNat ∧ (0x020C00FF : Cmd) &&& 0x0000FF00 = 0) ∧
    (7 ≤ ((0x03070000 : Cmd).extractLsb' 16 8).toNat ∧ (0x03070000 : Cmd) &&& 0x0000FFFF = 0) ∧
    7 ≤ ((0x0407FFFF : Cmd).extractLsb' 16 8).toNat ∧
    ¬ (3 ≤ ((0x10000002 : Cmd).extractLsb' 0 8).toNat ∧ ((0x10000002 : Cmd).extractLsb' 0 8).toNat ≤ 5) ∧
    ¬ (3 ≤ ((0x10000006 : Cmd).extractLsb' 0 8).toNat ∧ ((0x10000006 : Cmd).extractLsb' 0 8).toNat ≤ 5) := by decide

/-- P1: a session under both index contexts that writes H, L and HL. -/
def session : List Instr := [.set8 .h 0xAA, .get16 .hl, .setctx .iy 0, .set16 .hl 0xC0DE, .get8 .l]

theorem witness_IndexSessionKeepsLiteralHL :
    (indexed .hl 0 0x1122 0 0).ctx = Ctx.default ∧ Selector.ix ≠ .hl ∧ ∀ i ∈ session, IndexSessionCommand i := by
  simp [session, IndexSessionCommand, indexed, Ctx.default]

/-- The last pair and the name next to it (R12, R13). -/
theorem witness_PairIsItsTwoCells : Reg16.iy ≠ .sp ∧ Reg16.halves .iy = some (.iyh, .iyl) ∧ Reg16.halves .sp = none := by decide

theorem witness_CellsAreDisjoint :
    Reg8.ixh ≠ .h ∧ (∀ hi lo, Reg16.halves .hl = some (hi, lo) → Reg8.ixh ≠ hi ∧ Reg8.ixh ≠ lo) := by
  refine ⟨by decide, fun hi lo h => ?_⟩
  cases h; decide

theorem witness_FlagsByteIsOpaque :
    (∀ v, Instr.set16 .hl 0x1122 ≠ .set8 .f v) ∧ (∀ v, Instr.set16 .hl 0x1122 ≠ .set16 .af v) ∧
      Instr.set16 .hl 0x1122 ≠ .get8 .f ∧ Instr.set16 .hl 0x1122 ≠ .get16 .af ∧
      (nextOf (exec (.set16 .hl 0x1122) s0)).isSome = true := by
  refine ⟨?_, ?_, ?_, ?_, by decide⟩ <;> simp

theorem witness_TranslatedCellRule_both : tr8 .ix .l = .ixl ∧ tr8 .hl .l = .l ∧ Selector.ix ≠ .hl := by decide

theorem witness_SetContextRule_frame :
    (∀ sel d, Instr.memwr 0 1 ≠ .setctx sel d) ∧ (nextOf (exec (.memwr 0 1) s0)).isSome = true := by
  refine ⟨by simp, by decide⟩

/-- V36: 0x0002 - 5 wraps to 0xFFFD. -/
theorem witness_IsEffectiveAddress : IsEffectiveAddress (indexed .ix 0xFB 0 0x0002 0) 0xFFFD := by
  unfold IsEffectiveAddress; decide

/-- V38: 0xFFFF + 127 wraps to 0x007E. -/
theorem witness_IsEffectiveAddress_wraps_up : IsEffectiveAddress (indexed .ix 0x7F 0 0xFFFF 0) 0x007E := by
  unfold IsEffectiveAddress; decide

theorem witness_LiteralHLUnseenUnderIndexContext :
    (indexed .iy 5 0x1122 0 0x8000).ctx.sel ≠ .hl ∧ (nextOf (exec .getind (indexed .iy 5 0x1122 0 0x8000))).isSome = true := by decide

theorem witness_PushPopAreInverse : (placed 0 0x0001 [(0x0000, 0xBE), (0xFFFF, 0xEF)]).mem.wf = true := by decide

/-- V47: PC is the effective address. -/
theorem witness_StoreIsFetchedAtOnce_setind :
    IsEffectiveAddress { indexed .hl 0 0x0100 0 0 with pc := 0x0100 } ({ indexed .hl 0 0x0100 0 0 with pc := 0x0100 } : State).pc := by
  unfold IsEffectiveAddress; decide

/-- V64: PC lies where the low byte is pushed. -/
theorem witness_StoreIsFetchedAtOnce_push : (placed 0x0100 0x0102 []).pc = (placed 0x0100 0x0102 []).sp - 2 := by decide

theorem witness_StoreIsFetchedAtOnce_push_high : (placed 0x0101 0x0102 []).pc = (placed 0x0101 0x0102 []).sp - 1 := by decide

theorem witness_PortReadRule :
    ({ s0 with svc := some .read, inbox := [.portDoneRead 0xFF] } : State).phase.isEnded = false ∧
      ({ s0 with svc := some .read, inbox := [.portDoneRead 0xFF] } : State).svc = some .read ∧ s0.svc = none := by decide

theorem witness_PortWriteRule :
    ({ s0 with svc := some .write, inbox := [.portDoneWrite] } : State).phase.isEnded = false ∧
      ({ s0 with svc := some .write, inbox := [.portDoneWrite] } : State).svc = some .write ∧ s0.svc = none := by decide

theorem witness_ServiceWindowRule :
    ¬ IsPort .getctx ∧ IsPort (.portrd 1) ∧ (nextOf (exec .getctx { s0 with svc := none })).isSome = true := by
  refine ⟨id, trivial, by decide⟩

/-- V76: a handler that writes A and answers 0x0D; and a write whose handler issues nothing (V75). -/
theorem witness_PortTransaction :
    (encode (.portrd 0xFFFF) = 0x3200FFFF ∧
      ({ s0 with inbox := [.command 0x3200FFFF, .command 0x0200000D, .portDoneRead 0x0D] } : State).inbox =
        .command (encode (.portrd 0xFFFF)) :: ([(0x0200000D : Cmd)].map Event.command ++ .portDoneRead 0x0D :: []) ∧
      s0.phase.isEnded = false ∧ s0.svc = none) ∧
    ({ s0 with inbox := [.command 0x33410001, .portDoneWrite] } : State).inbox =
      .command (encode (.portwr 0x0001 0x41)) :: ([].map Event.command ++ .portDoneWrite :: []) := by decide

theorem witness_HandlerPowers : ({ s0 with svc := some .write, halted := true } : State).svc = some .write := by decide

theorem witness_EveryCommandIsAnswered :
    ¬ IsPort .pop ∧ IsPort (.portwr 1 2) ∧ s0.svc = none ∧ ({ s0 with svc := some .read } : State).svc ≠ none :=
  ⟨id, trivial, by decide, by decide⟩

theorem witness_AccessSummary :
    exec .fetch8 s0 = .next { s0 with pc := 1, outbox := [okReply 0] } ∧ (∀ r v, Instr.fetch8 ≠ .set8 r v) ∧
      (∀ m v, Instr.fetch8 ≠ .set16 m v) ∧ Instr.fetch8 ≠ .pop ∧ Instr.fetch8 ≠ .sethalt ∧ ¬ IsPort .fetch8 := by
  refine ⟨rfl, by simp, by simp, by simp, by simp, id⟩

theorem witness_EveryStepKeepsInvariant :
    (arriving 0x24001234).Inv ∧ (nextOf (step (arriving 0x24001234))).isSome = true :=
  ⟨⟨by decide, by decide⟩, by decide⟩

theorem witness_HaltedAndCycleNeverGoBack : (nextOf (step (arriving 0x36000004))).map (·.cycle) = some 4 := by decide

theorem witness_HaltedFlagRules :
    ({ s0 with halted := true } : State).halted = true ∧
      exec .pop s0 = .next { s0 with sp := 2, outbox := [okReply 0] } ∧ Instr.pop ≠ .gethalt :=
  ⟨rfl, rfl, by decide⟩

theorem witness_CycleCounterRules :
    exec .pop s0 = .next { s0 with sp := 2, outbox := [okReply 0] } ∧ (∀ n, Instr.pop ≠ .addcyc n) ∧ Instr.pop ≠ .getcyc :=
  ⟨rfl, by simp, by decide⟩

theorem witness_ContextAfterASequence :
    RestoresContext [.setctx .ix 5, .getind, Instr.clrctx] ∧ s0.CtxDefault := ⟨rfl, rfl⟩

theorem witness_NoStaleDisplacement :
    NoStaleDisp (.setctx .hl 0) ∧ NoStaleDisp (.setctx .ix 5) ∧ s0.DispClear ∧ s0.ctx.sel = .hl ∧
      (nextOf (exec (.setctx .hl 0) s0)).isSome = true :=
  ⟨rfl, trivial, fun _ => rfl, rfl, by decide⟩

/-- Each of the dispatcher's five outcomes, with the example parameters (V110, V111, V113 to V115). -/
theorem witness_DispatcherChecksInOrder :
    (({ s0 with inbox := [.instrDone] } : State).phase = .running ∧ ({ s0 with inbox := [.instrDone] } : State).svc = none) ∧
    (0xFA00 : Word) ∈ exampleEnv.biosRegion ∧
    ((0x0005 : Word) ∉ exampleEnv.biosRegion ∧ (0x0005 : Word) = exampleEnv.bdosEntry) ∧
    ((0x0004 : Word) ∉ exampleEnv.biosRegion ∧ (0x0004 : Word) + 1 = exampleEnv.bdosEntry) ∧
    (0x0006 : Word) ∉ exampleEnv.biosRegion ∧ (0x0006 : Word) ≠ exampleEnv.bdosEntry ∧
      (0x0006 : Word) + 1 ≠ exampleEnv.bdosEntry := by decide

theorem witness_BdosHandlerReturnsToCaller :
    ({ s0 with phase := .bdos, inbox := [.serviceDone .continue] } : State).phase = .bdos ∧
      ({ s0 with phase := .bdos, inbox := [.serviceDone .continue] } : State).svc = none := by decide

theorem witness_BiosHandlerVerdict :
    ({ s0 with phase := .bios 0xFA00, inbox := [.serviceDone .stop] } : State).phase = .bios 0xFA00 ∧
      ({ s0 with phase := .bios 0xFA00, inbox := [.serviceDone .stop] } : State).svc = none := by decide

theorem witness_RunEndsOnlySo_exit :
    (nextOf (step { s0 with phase := .bios 0xFA00, inbox := [.serviceDone .stop] })).map (·.phase) = some (.ended .programExit) := by
  decide

theorem witness_RunEndsOnlySo_halt :
    (nextOf (step { s0 with halted := true, inbox := [.instrDone] })).map (·.phase) = some (.ended .haltAbort) := by decide

theorem witness_RunEndsOnlySo_service :
    (nextOf (step { s0 with phase := .bdos, inbox := [.serviceDone .stop] })).map (·.phase) = some (.ended .serviceStop) := by decide

/-- The runaway guard, for every environment whose guard address is no BIOS address: the parameters are opaque. -/
theorem witness_RunEndsOnlySo_runaway (h : Config.envParams.bdosEntry - 1 ∉ Config.envParams.biosRegion) :
    (nextOf (step { s0 with pc := Config.envParams.bdosEntry - 1, inbox := [.instrDone] })).map (·.phase) =
      some (.ended .runawayAbort) := by
  have hne : Config.envParams.bdosEntry - 1 ≠ Config.envParams.bdosEntry := by
    generalize Config.envParams.bdosEntry = a; bv_omega
  have hd : dispatchChecks Config.envParams { s0 with pc := Config.envParams.bdosEntry - 1 } =
      (({ s0 with pc := Config.envParams.bdosEntry - 1 } : State).ok 0 |>.ok (Config.envParams.bdosEntry - 1)).setPhase
        (.ended .runawayAbort) := by
    simp only [dispatchChecks, if_neg h, if_neg hne, if_pos trivial]; rfl
  have hs : step { s0 with pc := Config.envParams.bdosEntry - 1, inbox := [.instrDone] } =
      .next (dispatchChecks Config.envParams { s0 with pc := Config.envParams.bdosEntry - 1 }) := rfl
  rw [hs, hd]; rfl

/-- An image that just fits below the top of memory. -/
theorem witness_ImageIsLoaded : exampleEnv.ccpBase.toNat + [(0x11 : Byte), 0x22].length ≤ 65536 := by decide

theorem witness_StateAtFirstGuestInstruction :
    stackPrepared exampleEnv (.transient [0xC3, 0x00, 0x01]) = true ∧
      (loadedBytes exampleEnv (.transient [0xC3, 0x00, 0x01])).length ≤ 65536 ∧ ([] : List Byte).length ≤ 65536 := by decide

/-- With one byte in each file control block: the count byte's address lies in none of them. -/
theorem witness_ParametersAreMarshalled_count :
    1 ≤ (exampleEnv.paramBuf - exampleEnv.fcb1).toNat ∧ 1 ≤ (exampleEnv.paramBuf - exampleEnv.fcb2).toNat := by decide

/-- The address of the 126th character, the last one written, is 0x00FE, and lies in none of them either; a tail that long has it. -/
theorem witness_ParametersAreMarshalled_last :
    (0x00FE : Word) = exampleEnv.paramBuf + 1 + BitVec.ofNat 16 125 ∧
      1 ≤ ((0x00FE : Word) - exampleEnv.fcb1).toNat ∧ 1 ≤ ((0x00FE : Word) - exampleEnv.fcb2).toNat := by decide

theorem witness_ParametersAreMarshalled_tail : (List.replicate 127 (0x41 : Byte))[125]? = some 0x41 := by
  rw [List.getElem?_replicate]; rfl

theorem witness_ResponseRule :
    decode 0x37000000 = .ok .getcyc ∧ ¬ IsPort .getcyc ∧ (arriving 0x37000000).inbox = [.command 0x37000000] ∧
      decode 0x14000000 = .error .reservedOpcode :=
  ⟨by decide, id, by decide, by decide⟩

theorem witness_LoaderRunsOnTheMachine : s0.phase.isEnded = false := by decide

end Sys2Proof.Machine.Tests
end

section
/-! PROOFS. The state family (10_state.md): byte cells and pairs (R11, R13, R14), the flags byte (R17), reset (R26, R160). The shared idea is
the list of byte cells a command works on under a selector: a command reads no other cell and writes no other cell. -/

namespace Sys2Proof.Machine

/-! ## Reset -/

/-- Settles O43: the model's reset is one of the resets `State.resetWith`, whose fields are the spec's reset values for every fill. -/
theorem resetValues : Obligations.ResetValues :=
  ⟨⟨_, _, _, _, rfl⟩, fun fill g sp pc =>
    ⟨rfl, rfl, rfl, rfl, State.readByte_resetWith fill g sp pc, rfl, rfl, rfl⟩⟩

/-! ## Byte cells -/

@[simp] theorem State.readR8_writeR8 (s : State) (n k : Reg8) (v : Byte) :
    (s.writeR8 n v).readR8 k = if k = n then v else s.readR8 k :=
  RegFile.get_set s.regs n k v

theorem RegFile.set_comm (g : RegFile) {n k : Reg8} (h : n ≠ k) (v w : Byte) :
    (g.set n v).set k w = (g.set k w).set n v := by
  refine RegFile.ext_get fun j => ?_
  simp only [RegFile.get_set]
  by_cases hj : j = n
  · subst j; rw [if_neg h, if_pos rfl, if_pos rfl]
  · rw [if_neg hj, if_neg hj]

theorem State.writeR8_comm (s : State) {n k : Reg8} (h : n ≠ k) (v w : Byte) :
    (s.writeR8 n v).writeR8 k w = (s.writeR8 k w).writeR8 n v :=
  congrArg (fun g => { s with regs := g }) (RegFile.set_comm s.regs h v w)

/-! ## Pairs -/

theorem State.readR16_of_halves {m : Reg16} {hi lo : Reg8} (h : Reg16.halves m = some (hi, lo)) (s : State) :
    s.readR16 m = pairWord (s.readR8 hi) (s.readR8 lo) := by
  simp only [State.readR16, h]

theorem State.writeR16_of_halves {m : Reg16} {hi lo : Reg8} (h : Reg16.halves m = some (hi, lo)) (s : State) (v : Word) :
    s.writeR16 m v = (s.writeR8 hi (hi8 v)).writeR8 lo (lo8 v) := by
  simp only [State.writeR16, h]

/-- Every name but SP has its two cells, and their codes are twice its own and one more (R13). -/
theorem Reg16.halves_codes {m : Reg16} (h : m ≠ .sp) :
    ∃ hi lo, Reg16.halves m = some (hi, lo) ∧ hi.code.toNat = 2 * m.code.toNat ∧ lo.code.toNat = 2 * m.code.toNat + 1 := by
  cases m with
  | sp => exact absurd rfl h
  | _ => exact ⟨_, _, rfl, rfl, rfl⟩

theorem Reg16.halves_ne {m : Reg16} {hi lo : Reg8} (h : Reg16.halves m = some (hi, lo)) : hi ≠ lo := by
  cases m <;> cases h <;> decide

/-- Settles O14: a pair is read and written through its two cells, which are distinct. -/
theorem pairIsItsTwoCells : Obligations.PairIsItsTwoCells := by
  refine ⟨fun m hm => ?_, rfl, fun s v => ⟨rfl, rfl⟩⟩
  obtain ⟨hi, lo, hh, hhi, hlo⟩ := Reg16.halves_codes hm
  have hne : hi ≠ lo := Reg16.halves_ne hh
  refine ⟨hi, lo, hh, hhi, hlo, fun s => ⟨?_, fun v => ?_, fun a b => ?_⟩⟩
  · rw [State.readR16_of_halves hh, toNat_pairWord]
  · rw [State.writeR16_of_halves hh]
    refine ⟨rfl, ?_, ?_, fun k hk hk' => ?_⟩
    · simp [hne, toNat_hi8]
    · simp [toNat_lo8]
    · simp [hk, hk']
  · rw [State.readR16_of_halves hh, toNat_pairWord]
    simp [hne]

/-! ## The cells a command works on -/

/-- The cells a 16-bit name is made of: two, or none for SP (R12, R13). -/
def pairCells (m : Reg16) : List Reg8 :=
  match Reg16.halves m with
  | some (hi, lo) => [hi, lo]
  | none => []

/-- The cells a command reads or writes under a selector: the resolved name's (R90, R91), or those of the register that the effective address
is made from (R92). -/
def accessedCells (c : Selector) : Instr → List Reg8
  | .get8 r | .set8 r _ => [tr8 c r]
  | .get16 m | .set16 m _ => pairCells (tr16 c m)
  | .getind | .setind _ => pairCells (selReg c)
  | _ => []

theorem halves_of_notMem_pairCells {m : Reg16} {n : Reg8} (h : n ∉ pairCells m) :
    Reg16.halves m = none ∨ ∃ hi lo, Reg16.halves m = some (hi, lo) ∧ n ≠ hi ∧ n ≠ lo := by
  cases hh : Reg16.halves m with
  | none => exact .inl rfl
  | some p => exact .inr ⟨p.1, p.2, rfl, by simpa [pairCells, hh] using h⟩

theorem State.readR16_writeR8_of_notMem {m : Reg16} {n : Reg8} (h : n ∉ pairCells m) (s : State) (x : Byte) :
    (s.writeR8 n x).readR16 m = s.readR16 m := by
  obtain hh | ⟨hi, lo, hh, hhi, hlo⟩ := halves_of_notMem_pairCells h
  · simp only [State.readR16, hh, State.writeR8_sp]
  · simp [State.readR16_of_halves hh, hhi.symm, hlo.symm]

/-- A raw 16-bit write leaves a cell that is not the pair's as it was (R13, R14). -/
theorem State.writeR16_get_of_notMem {m : Reg16} {n : Reg8} (h : n ∉ pairCells m) (s : State) (v : Word) :
    (s.writeR16 m v).regs.get n = s.regs.get n := by
  rw [State.writeR16_get]
  obtain hh | ⟨hi, lo, hh, hhi, hlo⟩ := halves_of_notMem_pairCells h
  · simp only [hh]
  · simp only [hh, if_neg hhi, if_neg hlo]

theorem State.writeR16_writeR8_comm {m : Reg16} {n : Reg8} (h : n ∉ pairCells m) (s : State) (v : Word) (x : Byte) :
    (s.writeR8 n x).writeR16 m v = (s.writeR16 m v).writeR8 n x := by
  obtain hh | ⟨hi, lo, hh, hhi, hlo⟩ := halves_of_notMem_pairCells h
  · simp only [State.writeR16, hh]; rfl
  · rw [State.writeR16_of_halves hh, State.writeR16_of_halves hh, State.writeR8_comm s hhi, State.writeR8_comm _ hlo]

theorem ea_writeR8_of_notMem {c : Ctx} {n : Reg8} (h : n ∉ pairCells (selReg c.sel)) (s : State) (x : Byte) :
    ea c (s.writeR8 n x) = ea c s := by
  simp only [ea, State.readR16_writeR8_of_notMem h]

theorem State.openWindow_writeR8 (s : State) (n : Reg8) (x : Byte) (d : PortDir) (q : PortReq) :
    (s.writeR8 n x).openWindow d q = (s.openWindow d q).writeR8 n x := by
  unfold State.openWindow
  rw [State.writeR8_svc]
  split <;> rfl

/-- A command does not depend on a cell it does not work on: from a state that differs there it does the same, the cell differing in the
same way (R14, R17). -/
theorem exec_writeR8_of_not_accessed {i : Instr} {s t : State} {n : Reg8} (hn : n ∉ accessedCells s.ctx.sel i)
    (h : exec i s = .next t) (x : Byte) : exec i (s.writeR8 n x) = .next (t.writeR8 n x) := by
  cases i with
  | get8 r =>
    cases h
    have hr : tr8 s.ctx.sel r ≠ n := by simpa [accessedCells, eq_comm] using hn
    simp only [exec, execGet8, getReg8, State.writeR8_ctx, State.readR8_writeR8, if_neg hr]; rfl
  | set8 r v =>
    cases h
    have hr : n ≠ tr8 s.ctx.sel r := by simpa [accessedCells] using hn
    simp only [exec, execSet8, setReg8, State.writeR8_ctx, State.writeR8_comm s hr]; rfl
  | get16 m =>
    cases h
    simp only [exec, execGet16, getReg16, State.writeR8_ctx, State.readR16_writeR8_of_notMem hn]; rfl
  | set16 m v =>
    cases h
    simp only [exec, execSet16, setReg16, State.writeR8_ctx, State.writeR16_writeR8_comm hn]; rfl
  | getind =>
    cases h
    simp only [exec, execGetind, getIndirect, State.writeR8_ctx, ea_writeR8_of_notMem hn]; rfl
  | setind v =>
    cases h
    simp only [exec, execSetind, setIndirect, State.writeR8_ctx, ea_writeR8_of_notMem hn]; rfl
  | portrd p => cases h; exact congrArg _ (s.openWindow_writeR8 n x _ _)
  | portwr p v => cases h; exact congrArg _ (s.openWindow_writeR8 n x _ _)
  | _ => cases h; rfl

/-- The only commands that write byte cells are SET8 and SET16, each the cells of its resolved name (R25, R81, R83). -/
theorem exec_regs_cases {i : Instr} {s t : State} (h : exec i s = .next t) :
    (∃ r v, i = .set8 r v ∧ t.regs = s.regs.set (tr8 s.ctx.sel r) v) ∨
    (∃ m v, i = .set16 m v ∧ t.regs = (s.writeR16 (tr16 s.ctx.sel m) v).regs) ∨
    t.regs = s.regs := by
  cases i with
  | set8 r v => cases h; exact .inl ⟨r, v, rfl, rfl⟩
  | set16 m v => cases h; exact .inr (.inl ⟨m, v, rfl, rfl⟩)
  | portrd p => cases h; exact .inr (.inr (s.openWindow_regs _ _))
  | portwr p v => cases h; exact .inr (.inr (s.openWindow_regs _ _))
  | _ => cases h; exact .inr (.inr rfl)

/-! ## The flags byte -/

/-- No other name resolves to cell F (R90). -/
theorem tr8_eq_f_iff (c : Selector) (r : Reg8) : tr8 c r = .f ↔ r = .f := by
  cases c <;> cases r <;> decide

/-- Cell F belongs to the name AF alone, under every selector (R13, R91). -/
theorem f_mem_pairCells_tr16_iff (c : Selector) (m : Reg16) : .f ∈ pairCells (tr16 c m) ↔ m = .af := by
  cases c <;> cases m <;> decide

/-- No selector makes the effective address from F (R92). -/
theorem f_notMem_pairCells_selReg (c : Selector) : .f ∉ pairCells (selReg c) := by
  cases c <;> decide

/-- The four forms that work on F, whatever the selector (R17). -/
theorem f_mem_accessedCells {c : Selector} {i : Instr} (h : .f ∈ accessedCells c i) :
    i = .get8 .f ∨ (∃ v, i = .set8 .f v) ∨ i = .get16 .af ∨ ∃ v, i = .set16 .af v := by
  cases i with
  | get8 r =>
    obtain rfl : r = .f := (tr8_eq_f_iff c r).mp (List.mem_singleton.mp h).symm
    exact .inl rfl
  | set8 r v =>
    obtain rfl : r = .f := (tr8_eq_f_iff c r).mp (List.mem_singleton.mp h).symm
    exact .inr (.inl ⟨v, rfl⟩)
  | get16 m =>
    obtain rfl : m = .af := (f_mem_pairCells_tr16_iff c m).mp h
    exact .inr (.inr (.inl rfl))
  | set16 m v =>
    obtain rfl : m = .af := (f_mem_pairCells_tr16_iff c m).mp h
    exact .inr (.inr (.inr ⟨v, rfl⟩))
  | getind => exact absurd h (f_notMem_pairCells_selReg c)
  | setind v => exact absurd h (f_notMem_pairCells_selReg c)
  | _ => cases h

/-- Settles O16: the frame from what SET8 and SET16 write, the independence from the cells a command works on. -/
theorem flagsByteIsOpaque : Obligations.FlagsByteIsOpaque := by
  intro i s hset8 hset16
  constructor
  · intro t h
    change t.regs.get .f = s.regs.get .f
    obtain ⟨r, v, rfl, ht⟩ | ⟨m, v, rfl, ht⟩ | ht := exec_regs_cases h
    · have hr : .f ≠ tr8 s.ctx.sel r := fun hf => hset8 v (by rw [(tr8_eq_f_iff _ r).mp hf.symm])
      rw [ht, RegFile.get_set, if_neg hr]
    · have hm : .f ∉ pairCells (tr16 s.ctx.sel m) := fun hf => hset16 v (by rw [(f_mem_pairCells_tr16_iff _ m).mp hf])
      rw [ht, State.writeR16_get_of_notMem hm]
    · rw [ht]
  · intro hget8 hget16 x t h
    refine exec_writeR8_of_not_accessed (fun hf => ?_) h x
    obtain hi | ⟨v, hi⟩ | hi | ⟨v, hi⟩ := f_mem_accessedCells hf
    · exact hget8 hi
    · exact hset8 v hi
    · exact hget16 hi
    · exact hset16 v hi

end Sys2Proof.Machine
end

section
/-! PROOFS. The encoding family (30_encoding.md): the table of R68, read by match, mask and constraint, against the decoder of R73, read by formats.
The shared idea is that a row's match, mask and constraint are the three checks of the decoder, one each: the opcode, the must-be-zero
fields of the format, and the operand's name. -/

namespace Sys2Proof

/-! ## The three checks of a row (R68 to R71) -/

@[simp] theorem Opcode.code_inj {o o' : Opcode} : o.code = o'.code ↔ o = o' :=
  ⟨fun h => Option.some.inj (by rw [← Opcode.ofCode_code o, h, Opcode.ofCode_code]), congrArg _⟩

/-- The library's mask lemmas at the byte literals the masks are written with. -/
theorem byte_and_allOnes (x : Byte) : x &&& 0xFF = x := BitVec.and_allOnes

theorem byte_and_zero (x : Byte) : x &&& 0 = 0 := BitVec.and_zero

theorem Opcode.isOpcodeOf_iff (o : Opcode) (w : Cmd) : o.isOpcodeOf w = true ↔ opField w = o.code := by
  obtain ⟨-, hop, hb, hh, hl⟩ := o.mask_fields
  have hm : opField 0xFF000000 = 0xFF ∧ bField 0xFF000000 = 0 ∧ wHigh 0xFF000000 = 0 ∧ wLow 0xFF000000 = 0 := by decide
  obtain ⟨mop, mb, mh, ml⟩ := hm
  rw [Opcode.isOpcodeOf, beq_iff_eq, and_eq_iff, hop, hb, hh, hl, mop, mb, mh, ml]
  simp only [byte_and_allOnes, byte_and_zero, and_self, and_true]

theorem Opcode.fieldsOk_iff (o : Opcode) (w : Cmd) :
    o.fieldsOk w = true ↔ bField w &&& bField o.mask = 0 ∧ wHigh w &&& wHigh o.mask = 0 ∧ wLow w &&& wLow o.mask = 0 := by
  have hm : opField 0x00FFFFFF = 0 ∧ bField 0x00FFFFFF = 0xFF ∧ wHigh 0x00FFFFFF = 0xFF ∧ wLow 0x00FFFFFF = 0xFF := by decide
  have hz : opField 0 = 0 ∧ bField 0 = 0 ∧ wHigh 0 = 0 ∧ wLow 0 = 0 := by decide
  obtain ⟨mop, mb, mh, ml⟩ := hm
  obtain ⟨zop, zb, zh, zl⟩ := hz
  rw [Opcode.fieldsOk, beq_iff_eq, and_eq_iff, opField_and, bField_and, wHigh_and, wLow_and, mop, mb, mh, ml, zop, zb, zh, zl]
  simp only [byte_and_allOnes, byte_and_zero, true_and]

/-- The table's test of a row is the three checks in turn. -/
theorem Opcode.admits_iff_checks (o : Opcode) (w : Cmd) :
    o.admits w = true ↔ o.isOpcodeOf w = true ∧ o.fieldsOk w = true ∧ o.operandOk w = true := by
  rw [Opcode.admits_iff, Opcode.isOpcodeOf_iff, Opcode.fieldsOk_iff, and_assoc]

/-! ## The three checks of the decoder (R62, R73) -/

/-- The must-be-zero bytes of a format: field `b`, then the two bytes of field `w` (R62). -/
def Format.mbzBytes : Format → Byte × Byte × Byte
  | .z => (0xFF, 0xFF, 0xFF)
  | .r | .b => (0, 0xFF, 0xFF)
  | .rb | .x => (0, 0xFF, 0)
  | .w => (0xFF, 0, 0)
  | .rw | .bw => (0, 0, 0)

/-- A row's mask below the opcode is its format's. -/
theorem Opcode.mask_mbzBytes (o : Opcode) : (bField o.mask, wHigh o.mask, wLow o.mask) = o.format.mbzBytes := by
  cases o <;> decide

theorem wField_eq_zero_iff (w : Cmd) : wField w = 0 ↔ wHigh w = 0 ∧ wLow w = 0 := wField_eq_iff w 0

theorem Format.mbzOk_iff (f : Format) (w : Cmd) :
    f.mbzOk w = true ↔
      bField w &&& f.mbzBytes.1 = 0 ∧ wHigh w &&& f.mbzBytes.2.1 = 0 ∧ wLow w &&& f.mbzBytes.2.2 = 0 := by
  cases f <;>
    simp only [Format.mbzOk, Format.mbzBytes, Bool.and_eq_true, beq_iff_eq, wField_eq_zero_iff, byte_and_allOnes, byte_and_zero,
      true_and, and_true]

theorem Opcode.fieldsOk_eq_mbzOk (o : Opcode) (w : Cmd) : o.fieldsOk w = o.format.mbzOk w := by
  rw [Bool.eq_iff_iff, Opcode.fieldsOk_iff, Format.mbzOk_iff, ← Opcode.mask_mbzBytes]

/-- A row's constraint holds exactly where its operand is a name of the machine, so that the row has an instruction for the word (R71). -/
theorem Opcode.operandOk_iff_build (o : Opcode) (w : Cmd) : o.operandOk w = true ↔ ∃ i, o.build w = some i := by
  rw [← Option.isSome_iff_exists, ← Option.ne_none_iff_isSome]
  obtain ⟨h1, h2, h3, h4, h5⟩ := operandOk_names w
  cases o with
  | get8 => rw [h1]; simp [Opcode.build, Reg8.ofCode_eq_none_iff]
  | set8 => rw [h2]; simp [Opcode.build, Reg8.ofCode_eq_none_iff]
  | get16 => rw [h3]; simp [Opcode.build, Reg16.ofCode_eq_none_iff]
  | set16 => rw [h4]; simp [Opcode.build, Reg16.ofCode_eq_none_iff]
  | setctx => rw [h5]; simp [Opcode.build, Selector.ofCode_eq_none_iff]
  | _ => exact ⟨fun _ => nofun, fun _ => rfl⟩

theorem Opcode.opcode_of_build {o : Opcode} {w : Cmd} {i : Instr} (h : o.build w = some i) : i.opcode = o := by
  cases o with
  | get8 | set8 | get16 | set16 | setctx => obtain ⟨r, -, rfl⟩ := Option.map_eq_some_iff.mp h; rfl
  | _ => cases h; rfl

/-- A row admits a word exactly when the decoder's three checks pass on it for that row. -/
theorem Opcode.admits_iff_build (o : Opcode) (w : Cmd) :
    o.admits w = true ↔ opField w = o.code ∧ o.format.mbzOk w = true ∧ ∃ i, o.build w = some i := by
  rw [Opcode.admits_iff_checks, Opcode.isOpcodeOf_iff, Opcode.fieldsOk_eq_mbzOk, Opcode.operandOk_iff_build]

/-! ## The table and the decoder -/

theorem Opcode.mem_all (o : Opcode) : o ∈ Opcode.all := by cases o <;> decide

theorem wellFormed_iff (w : Cmd) : wellFormed w = true ↔ ∃ o : Opcode, o.admits w = true := by
  simp only [wellFormed, List.any_eq_true, Opcode.mem_all, true_and]

/-- A word has the opcode of one row only. -/
theorem Opcode.admits_unique {o o' : Opcode} {w : Cmd} (h : o.admits w = true) (h' : o'.admits w = true) : o' = o := by
  obtain ⟨ho, -⟩ := (o.admits_iff_build w).mp h
  obtain ⟨ho', -⟩ := (o'.admits_iff_build w).mp h'
  exact Opcode.code_inj.mp (ho'.symm.trans ho)

theorem decode_of_admits {o : Opcode} {w : Cmd} (h : o.admits w = true) : ∃ i, decode w = .ok i ∧ i.opcode = o := by
  obtain ⟨ho, hm, i, hb⟩ := (o.admits_iff_build w).mp h
  exact ⟨i, decode_eq_ok ho hm hb, Opcode.opcode_of_build hb⟩

/-- The row of an instruction the decoder reads, with what it checked. -/
theorem decode_ok_inv {w : Cmd} {i : Instr} (h : decode w = .ok i) :
    opField w = i.opcode.code ∧ i.opcode.format.mbzOk w = true ∧ i.opcode.build w = some i := by
  obtain ⟨-, he⟩ | ⟨o, ho, ⟨-, he⟩ | ⟨-, -, he⟩ | ⟨j, hm, hb, hj⟩⟩ := decode_cases w
  · cases he.symm.trans h
  · cases he.symm.trans h
  · cases he.symm.trans h
  · cases hj.symm.trans h
    obtain rfl := Opcode.opcode_of_build hb
    exact ⟨ho, hm, hb⟩

theorem admits_of_decode {w : Cmd} {i : Instr} (h : decode w = .ok i) : i.opcode.admits w = true := by
  obtain ⟨ho, hm, hb⟩ := decode_ok_inv h
  exact (Opcode.admits_iff_build _ w).mpr ⟨ho, hm, i, hb⟩

end Sys2Proof

namespace Sys2Proof.Machine

/-- Settles O7: the row that admits a word is the row whose three checks the decoder makes. -/
theorem decoderAcceptsExactlyTheTable : Obligations.DecoderAcceptsExactlyTheTable := by
  refine ⟨fun w => ?_, fun w o h => ⟨fun o' h' => Opcode.admits_unique h h', decode_of_admits h⟩⟩
  rw [wellFormed_iff]
  constructor
  · rintro ⟨o, h⟩
    obtain ⟨i, hi, -⟩ := decode_of_admits h
    exact ⟨i, hi⟩
  · rintro ⟨i, hi⟩
    exact ⟨i.opcode, admits_of_decode hi⟩

end Sys2Proof.Machine
end

section
/-! PROOFS. The register access family (40_register_access.md). A command's word is its encoding, and its refusals are the row's own two checks,
each said once for every row of the table; its effect is read off the resolver. The guarantee for index sessions (R84) rests on one fact: under an
index context no command writes the cells H and L. -/

namespace Sys2Proof

/-! ## The encoding is read back (R60, R62, R68) -/

/-- The low byte of a zero-extended byte; `high_of_byte` is its companion. -/
theorem low_of_byte (v : Byte) : (v.setWidth 16).extractLsb' 0 8 = v := by
  apply BitVec.eq_of_toNat_eq
  have := v.isLt
  simp only [BitVec.extractLsb'_toNat, BitVec.toNat_setWidth, Nat.shiftRight_zero]; omega

/-- An instruction's word lies in its own row; `Laws.TableRow` has it constructor by constructor. -/
theorem admits_encode (i : Instr) : i.opcode.admits (encode i) = true := by
  cases i with
  | get8 r => exact Laws.TableRow.get8 r
  | set8 r v => exact Laws.TableRow.set8 r v
  | get16 m => exact Laws.TableRow.get16 m
  | set16 m v => exact Laws.TableRow.set16 m v
  | setctx c d => exact Laws.TableRow.setctx c d
  | setind v => exact Laws.TableRow.setind v
  | memrd a => exact Laws.TableRow.memrd a
  | memwr a v => exact Laws.TableRow.memwr a v
  | push v => exact Laws.TableRow.push v
  | setpc v => exact Laws.TableRow.setpc v
  | portrd p => exact Laws.TableRow.portrd p
  | portwr p v => exact Laws.TableRow.portwr p v
  | addcyc n => exact Laws.TableRow.addcyc n
  | _ => decide

/-- From its word, an instruction's row builds that instruction: the operands come back from their fields. -/
theorem build_encode (i : Instr) : i.opcode.build (encode i) = some i := by
  cases i with
  | set8 r v | setctx r v => simp [Instr.opcode, Opcode.build, Instr.bOperand, Instr.wOperand, low_of_byte]
  | _ => simp [Instr.opcode, Opcode.build, Instr.bOperand, Instr.wOperand]

theorem decode_encode (i : Instr) : decode (encode i) = .ok i := by
  obtain ⟨hop, hmbz, -⟩ := (Opcode.admits_iff_build _ _).mp (admits_encode i)
  exact decode_eq_ok hop hmbz (build_encode i)

/-- The same for a word written as a number, which is the encoding by R60. -/
theorem decode_cmdWord {i : Instr} {n : Nat}
    (h : i.opcode.code.toNat * 0x1000000 + i.bOperand.toNat * 0x10000 + i.wOperand.toNat = n) :
    decode (Machine.cmdWord n) = .ok i := by
  rw [← h, ← encode_eq_cmdWord, decode_encode]

end Sys2Proof

namespace Sys2Proof.Machine

/-! ## The refusals of a row (R70, R71) -/

/-- The must-be-zero fields of a row are its mask below the opcode. -/
theorem fieldRefusals (o : Opcode) : FieldRefusals o.code (o.mask &&& 0x00FFFFFF) := by
  intro w hop hmbz
  refine decode_eq_field hop ?_
  rw [← Opcode.fieldsOk_eq_mbzOk]
  exact beq_false_of_ne hmbz

/-- A name is reserved where the row's operand constraint fails. -/
theorem nameRefusals (o : Opcode) {reserved : Cmd → Prop} (h : ∀ w, reserved w → o.operandOk w = false) :
    NameRefusals o.code (o.mask &&& 0x00FFFFFF) reserved := by
  intro w hop hmbz hres
  refine decode_eq_name hop ?_ ?_
  · rw [← Opcode.fieldsOk_eq_mbzOk]
    exact beq_iff_eq.mpr hmbz
  · have hno : ¬ ∃ i, o.build w = some i := by
      rw [← Opcode.operandOk_iff_build, h w hres]; exact Bool.false_ne_true
    exact Option.eq_none_iff_forall_ne_some.mpr (not_exists.mp hno)

/-! ## What the four commands do (R80 to R83) -/

theorem exec_get8 (r : Reg8) (s : State) :
    exec (.get8 r) s =
      .next { s with outbox := okReply (BitVec.ofNat 16 (s.regs.get (tr8 s.ctx.sel r)).toNat) :: s.outbox } := by
  rw [BitVec.ofNat_toNat]; rfl

theorem exec_get16 (m : Reg16) (s : State) :
    exec (.get16 m) s = .next { s with outbox := okReply (s.readR16 (tr16 s.ctx.sel m)) :: s.outbox } := rfl

theorem hi8_eq_ofNat (v : Word) : hi8 v = BitVec.ofNat 8 (v.toNat / 256) := by
  rw [← toNat_hi8, BitVec.ofNat_toNat, BitVec.setWidth_eq]

theorem lo8_eq_ofNat (v : Word) : lo8 v = BitVec.ofNat 8 (v.toNat % 256) := by
  rw [← toNat_lo8, BitVec.ofNat_toNat, BitVec.setWidth_eq]

/-- A raw 16-bit write leaves everything but the cells and SP (R13). -/
theorem State.writeR16_frame (s : State) (m : Reg16) (v : Word) :
    s.writeR16 m v = { s with regs := (s.writeR16 m v).regs, sp := (s.writeR16 m v).sp } := by
  cases m <;> rfl

/-- Settles O9: the word is the encoding, the refusals are the row's, the response is the resolved cell. -/
theorem getEightRule : Obligations.GetEightRule := by
  refine ⟨fun r => ?_, fieldRefusals .get8, nameRefusals .get8 fun w hw => ?_, exec_get8⟩
  · exact decode_cmdWord (by simp [Instr.opcode, Opcode.code, Instr.bOperand, Instr.wOperand])
  · exact decide_eq_false (Nat.not_le.mpr hw)

/-- Settles O10: SET8 is the raw write of the resolved cell. -/
theorem setEightRule : Obligations.SetEightRule := by
  refine ⟨fun r v => ?_, fieldRefusals .set8, nameRefusals .set8 fun w hw => ?_, fun r v s => ?_⟩
  · have hv : v.toNat < 0x10000 := v.isLt.trans (by decide)
    exact decode_cmdWord (by simp [Instr.opcode, Opcode.code, Instr.bOperand, Instr.wOperand, hv])
  · exact decide_eq_false (Nat.not_le.mpr hw)
  · exact ⟨_, rfl, rfl, fun n => RegFile.get_set s.regs (tr8 s.ctx.sel r) n v⟩

/-- Settles O11: the word is the encoding, the refusals are the row's, the response is the resolved register. -/
theorem getSixteenRule : Obligations.GetSixteenRule := by
  refine ⟨fun m => ?_, fieldRefusals .get16, nameRefusals .get16 fun w hw => ?_, exec_get16⟩
  · exact decode_cmdWord (by simp [Instr.opcode, Opcode.code, Instr.bOperand, Instr.wOperand])
  · exact decide_eq_false (Nat.not_le.mpr hw)

/-- Settles O12: SET16 is the raw write of the resolved register; a pair's two cells are distinct, so their order does not matter. -/
theorem setSixteenRule : Obligations.SetSixteenRule := by
  refine ⟨fun m v => ?_, nameRefusals .set16 fun w hw => ?_, fun m v s => ?_⟩
  · exact decode_cmdWord (by simp [Instr.opcode, Opcode.code, Instr.bOperand, Instr.wOperand])
  · exact decide_eq_false (Nat.not_le.mpr hw)
  · refine ⟨_, rfl, ?_, State.writeR16_sp s _ v, fun n => ?_⟩
    · exact congrArg (State.ok · 0) (State.writeR16_frame s _ v)
    · refine (State.writeR16_get s _ v n).trans ?_
      cases hh : Reg16.halves (tr16 s.ctx.sel m) with
      | none => rfl
      | some p =>
        obtain ⟨hi, lo⟩ := p
        have hne : hi ≠ lo := Reg16.halves_ne hh
        rw [← hi8_eq_ofNat, ← lo8_eq_ofNat]
        by_cases hn : n = hi
        · subst hn; simp [hne]
        · simp [hn]

/-! ## Index sessions (R84) -/

/-- Every command has a next state (R130). -/
theorem exec_next (i : Instr) (s : State) : ∃ t, exec i s = .next t := by
  cases i <;> exact ⟨_, rfl⟩

/-- The context moves by SETCTX alone (R93). -/
theorem exec_ctx_cases {i : Instr} {s t : State} (h : exec i s = .next t) :
    (∃ sel d, i = .setctx sel d ∧ t.ctx = ⟨sel, d⟩) ∨ t.ctx = s.ctx := by
  cases i with
  | setctx sel d => cases h; exact .inl ⟨sel, d, rfl, rfl⟩
  | set16 m v => cases h; exact .inr (s.writeR16_ctx _ v)
  | portrd p => cases h; exact .inr (s.openWindow_ctx _ _)
  | portwr p v => cases h; exact .inr (s.openWindow_ctx _ _)
  | _ => cases h; exact .inr rfl

theorem literal_notMem_pairCells {m : Reg16} (h : m ≠ .hl) : .h ∉ pairCells m ∧ .l ∉ pairCells m := by
  cases m with
  | hl => exact absurd rfl h
  | _ => decide

/-- Under an index context no command writes the cell H or the cell L (R14, R90, R91). -/
theorem exec_keeps_literal {i : Instr} {s t : State} (hc : s.ctx.sel ≠ .hl) (h : exec i s = .next t) :
    t.regs.get .h = s.regs.get .h ∧ t.regs.get .l = s.regs.get .l := by
  obtain ⟨r, v, -, ht⟩ | ⟨m, v, -, ht⟩ | ht := exec_regs_cases h
  · obtain ⟨hh, hl⟩ := tr8_ne_literal hc r
    simp only [ht, RegFile.get_set, if_neg hh.symm, if_neg hl.symm, and_self]
  · obtain ⟨hh, hl⟩ := literal_notMem_pairCells (tr16_ne_literal hc m)
    simp only [ht, State.writeR16_get_of_notMem hh, State.writeR16_get_of_notMem hl, and_self]
  · simp only [ht, and_self]

/-- A command of an index session leaves an index context behind. -/
theorem exec_keeps_indexContext {i : Instr} {s t : State} (hi : IndexSessionCommand i) (hc : s.ctx.sel ≠ .hl)
    (h : exec i s = .next t) : t.ctx.sel ≠ .hl := by
  obtain ⟨sel, d, rfl, ht⟩ | ht := exec_ctx_cases h
  · rw [ht]; exact hi
  · rw [ht]; exact hc

/-- A session under an index context is performed whole, and the cells H and L hold at its end what they held at its start. -/
theorem performAll_indexSession (is : List Instr) (s : State) (hc : s.ctx.sel ≠ .hl) (his : ∀ i ∈ is, IndexSessionCommand i) :
    ∃ t, performAll is s = .next t ∧ t.regs.get .h = s.regs.get .h ∧ t.regs.get .l = s.regs.get .l := by
  induction is generalizing s with
  | nil => exact ⟨s, rfl, rfl, rfl⟩
  | cons i is ih =>
    obtain ⟨hi, his⟩ := List.forall_mem_cons.mp his
    obtain ⟨u, hu⟩ := exec_next i s
    obtain ⟨huh, hul⟩ := exec_keeps_literal hc hu
    obtain ⟨t, ht, hth, htl⟩ := ih u (exec_keeps_indexContext hi hc hu) his
    exact ⟨t, (performAll_cons is hu).trans ht, hth.trans huh, htl.trans hul⟩

/-- Settles O13: the session between the two SETCTX keeps the cells H and L, and under the selector HL the names H, L and HL are these cells. -/
theorem indexSessionKeepsLiteralHL : Obligations.IndexSessionKeepsLiteralHL := by
  intro s sel d is _ hsel his
  obtain ⟨u, hu, hh, hl⟩ := performAll_indexSession is (({ s with ctx := ⟨sel, d⟩ } : State).ok 0) hsel his
  obtain ⟨t, ht, hctx, hth, htl⟩ : ∃ t, performAll (.setctx sel d :: (is ++ [Instr.setctx .hl 0])) s = .next t ∧
      t.ctx.sel = .hl ∧ t.regs.get .h = s.regs.get .h ∧ t.regs.get .l = s.regs.get .l :=
    ⟨({ u with ctx := ⟨.hl, 0⟩ } : State).ok 0, (performAll_append [.setctx .hl 0] hu).trans rfl, rfl, hh, hl⟩
  refine ⟨t, ht, hth, htl, ?_, ?_, ?_⟩
  · rw [exec_get8, hctx, tr8_hl, hth]
  · rw [exec_get8, hctx, tr8_hl, htl]
  · rw [exec_get16, hctx, tr16_hl, ← hth, ← htl]; rfl

end Sys2Proof.Machine
end

section
/-! PROOFS. The addressing context family (41_addressing_context.md). The words and the refusals come from the row, as for register access. What is
particular here: the resolver said in name codes (R90, R91), and the effective address. R92 gives it as an integer modulo 65536, which is one word,
the one the resolver computes, and the indirect commands are the direct ones at that word (R97). -/

namespace Sys2Proof

theorem Reg8.code_le (n : Reg8) : n.code.toNat ≤ 11 := by cases n <;> decide

theorem Reg8.code_eq_six_iff (n : Reg8) : n.code.toNat = 6 ↔ n = .h := by cases n <;> decide

theorem Reg8.code_eq_seven_iff (n : Reg8) : n.code.toNat = 7 ↔ n = .l := by cases n <;> decide

end Sys2Proof

namespace Sys2Proof.Machine

/-! ## The resolver in name codes (R90, R91) -/

/-- H and L move by two cells for each step of the selector's code above HL's, and no other name moves. -/
theorem tr8_code (c : Selector) (n : Reg8) :
    (tr8 c n).code.toNat =
      if n.code.toNat = 6 ∨ n.code.toNat = 7 then n.code.toNat + 2 * (c.code.toNat - 3) else n.code.toNat := by
  cases n with
  | h => cases c <;> decide
  | l => cases c <;> decide
  | _ => cases c <;> rfl

/-- Settles O17: the codes from the resolver; the rest is that names and codes correspond, so that H and L are the codes 6 and 7. -/
theorem translatedCellRule : Obligations.TranslatedCellRule := by
  intro c n
  refine ⟨tr8_code c n, Reg8.code_le _, fun hc => hc ▸ tr8_hl n, fun hc => ?_⟩
  obtain ⟨hh, hl⟩ := tr8_ne_literal hc n
  exact ⟨mt (Reg8.code_eq_six_iff _).mp hh, mt (Reg8.code_eq_seven_iff _).mp hl⟩

theorem tr16_code (c : Selector) (m : Reg16) :
    (tr16 c m).code.toNat = if m.code.toNat = 3 then c.code.toNat else m.code.toNat := by
  cases m with
  | hl => cases c <;> decide
  | _ => rfl

/-- Settles O18: only the name HL moves, to the register with the selector's own code. -/
theorem translatedPairRule : Obligations.TranslatedPairRule :=
  fun c m => ⟨tr16_code c m, fun hc => hc ▸ tr16_hl m⟩

/-! ## The context commands (R93, R94) -/

/-- Settles O20: the word is the encoding, the refusals are the row's, and SETCTX alone moves the context. -/
theorem setContextRule : Obligations.SetContextRule := by
  refine ⟨fun sel d => ?_, fieldRefusals .setctx, nameRefusals .setctx fun w hw => decide_eq_false hw, fun _ _ _ => rfl,
    fun i s t hi h => ?_⟩
  · have hs : sel.code.toNat < 0x10000 := sel.code.isLt.trans (by decide)
    exact decode_cmdWord (by simp [Instr.opcode, Opcode.code, Instr.bOperand, Instr.wOperand, hs])
  · obtain ⟨sel, d, hset, -⟩ | ht := exec_ctx_cases h
    · exact absurd hset (hi sel d)
    · exact ht

theorem exec_getctx (s : State) :
    exec .getctx s = .next { s with outbox := okReply (composed s.ctx.d s.ctx.sel.code) :: s.outbox } := rfl

/-- The default context `(HL, 0)` as GETCTX returns it (R94). -/
theorem composed_default : composed Ctx.default.d Ctx.default.sel.code = 0x0003 := by decide

/-- Settles O21: the word is the encoding, the refusals are the row's, and every reset leaves the default context. -/
theorem getContextRule : Obligations.GetContextRule := by
  refine ⟨decode_encode .getctx, fieldRefusals .getctx, exec_getctx, fun fill g sp pc => ?_⟩
  rw [exec_getctx, ← composed_default]; rfl

/-! ## The effective address (R92) -/

/-- Adding a sign-extended byte to a word is integer addition modulo 65536. -/
theorem toNat_add_sext16 (v : Word) (d : Byte) : ((v + sext16 d).toNat : Int) = (v.toNat + d.toInt) % 65536 := by
  have hd : ((sext16 d).toNat : Int) = d.toInt % 65536 := by
    rw [sext16, BitVec.signExtend, BitVec.toNat_ofInt]
    exact Int.toNat_of_nonneg (Int.emod_nonneg _ (by decide))
  rw [BitVec.toNat_add, Int.natCast_emod, Int.natCast_add, hd]
  exact Int.add_emod_emod _ _ _

/-- One word satisfies R92, and it is the one the resolver computes. -/
theorem isEffectiveAddress_iff (s : State) (a : Word) : IsEffectiveAddress s a ↔ a = ea s.ctx s := by
  rw [IsEffectiveAddress, ← toNat_add_sext16, Int.natCast_inj, BitVec.toNat_inj]; rfl

/-! ## Indirect access (R95 to R97) -/

theorem exec_memrd (a : Word) (s : State) :
    exec (.memrd a) s = .next { s with outbox := okReply (BitVec.ofNat 16 (s.readByte a).toNat) :: s.outbox } := by
  rw [BitVec.ofNat_toNat]; rfl

/-- MEMWR changes memory alone, and there the byte it names alone (R101). -/
theorem exec_memwr_effect (a : Word) (v : Byte) (s : State) :
    ∃ t, exec (.memwr a v) s = .next t ∧ t = { s with mem := t.mem, outbox := okReply 0 :: s.outbox } ∧
      ∀ b, t.readByte b = if b = a then v else s.readByte b :=
  ⟨(s.writeByte a v).ok 0, rfl, rfl, fun b => State.readByte_writeByte s a b v⟩

theorem exec_getind_eq_memrd {s : State} {a : Word} (h : IsEffectiveAddress s a) : exec .getind s = exec (.memrd a) s := by
  rw [(isEffectiveAddress_iff s a).mp h]; rfl

theorem exec_setind_eq_memwr {s : State} {a : Word} (h : IsEffectiveAddress s a) (v : Byte) :
    exec (.setind v) s = exec (.memwr a v) s := by
  rw [(isEffectiveAddress_iff s a).mp h]; rfl

/-- Settles O24: the indirect commands work at the one effective address. -/
theorem indirectEqualsDirect : Obligations.IndirectEqualsDirect :=
  fun _ _ v h => ⟨exec_getind_eq_memrd h, exec_setind_eq_memwr h v⟩

/-- Settles O22: the word is the encoding, the refusals are the row's, the effect is MEMRD's at the effective address. -/
theorem getIndirectRule : Obligations.GetIndirectRule :=
  ⟨decode_encode .getind, fieldRefusals .getind, fun s a h => (exec_getind_eq_memrd h).trans (exec_memrd a s)⟩

/-- Settles O23: the word is the encoding, the refusals are the row's, the effect is MEMWR's at the effective address. -/
theorem setIndirectRule : Obligations.SetIndirectRule := by
  refine ⟨fun v => ?_, fieldRefusals .setind, fun v s a h => ?_⟩
  · exact decode_cmdWord (by simp [Instr.opcode, Opcode.code, Instr.bOperand, Instr.wOperand])
  · rw [exec_setind_eq_memwr h]
    exact exec_memwr_effect a v s

end Sys2Proof.Machine
end

section
/-! PROOFS. The memory, fetch and stack family (42_memory_fetch_stack.md). The words and the refusals come from the row, as for register access; each
command's effect is said in an equation or, where it stores bytes, by what memory reads afterwards. That PUSH and POP are inverse is a fact about
the two primitives alone: what POP reads after PUSH, and what PUSH stores after POP. -/

namespace Sys2Proof.Machine

/-! ## What the commands do (R102 to R105) -/

/-- The advance of PC as the number it is, 0xFFFF wrapping to 0x0000 (R102). -/
theorem word_add_one_eq_ofNat (a : Word) : a + 1 = BitVec.ofNat 16 ((a.toNat + 1) % 65536) :=
  BitVec.eq_of_toNat_eq (by simp [BitVec.toNat_add])

theorem exec_fetch8 (s : State) :
    exec .fetch8 s =
      .next { s with pc := s.pc + 1, outbox := okReply (BitVec.ofNat 16 (s.readByte s.pc).toNat) :: s.outbox } := by
  rw [BitVec.ofNat_toNat]; rfl

theorem exec_fetch16 (s : State) :
    exec .fetch16 s =
      .next { s with pc := s.pc + 2, outbox := okReply (composed (s.readByte (s.pc + 1)) (s.readByte s.pc)) :: s.outbox } := by
  rw [← word_add_one_add_one]; rfl

/-- PUSH changes SP and memory, and in memory the two bytes below SP alone (R104, R107). -/
theorem exec_push_effect (v : Word) (s : State) :
    ∃ t, exec (.push v) s = .next t ∧ t = { s with sp := s.sp - 2, mem := t.mem, outbox := okReply 0 :: s.outbox } ∧
      ∀ b, t.readByte b = if b = s.sp - 2 then lo8 v else if b = s.sp - 1 then hi8 v else s.readByte b :=
  ⟨(s.pushWord v).ok 0, rfl, by rw [← word_sub_one_sub_one]; rfl, s.readByte_pushWord v⟩

theorem exec_pop (s : State) :
    exec .pop s =
      .next { s with sp := s.sp + 2, outbox := okReply (composed (s.readByte (s.sp + 1)) (s.readByte s.sp)) :: s.outbox } := by
  rw [← word_add_one_add_one]; rfl

/-! ## Push and pop are inverse (R106) -/

/-- POP reads the value just pushed, for every SP: the two bytes lie at different addresses. -/
theorem State.popWord_value_pushWord (s : State) (v : Word) : (s.pushWord v).popWord.1 = v := by
  have hhi : s.sp - 1 - 1 + 1 = s.sp - 1 := BitVec.sub_add_cancel _ _
  rw [State.popWord_value, State.pushWord_sp, hhi, State.readByte_pushWord, State.readByte_pushWord,
    if_neg (word_sub_two_ne_sub_one s.sp).symm, if_pos rfl, if_pos (word_sub_one_sub_one s.sp), pairWord_hi8_lo8]

/-- POP after PUSH gives back the value and SP; memory alone keeps a trace of the two. -/
theorem State.popWord_pushWord (s : State) (v : Word) :
    (s.pushWord v).popWord = (v, { s with mem := (s.pushWord v).mem }) := by
  have hsp : s.sp - 1 - 1 + 1 + 1 = s.sp := by bv_omega
  refine Prod.ext (s.popWord_value_pushWord v) ?_
  calc (s.pushWord v).popWord.2
      = { s with sp := s.sp - 1 - 1 + 1 + 1, mem := (s.pushWord v).mem } := rfl
    _ = { s with mem := (s.pushWord v).mem } := by rw [hsp]

theorem State.pushWord_popWord_sp (s : State) : (s.popWord.2.pushWord s.popWord.1).sp = s.sp := by
  simp only [State.pushWord_sp, State.popWord_sp, BitVec.add_sub_cancel]

/-- Pushing the popped value back stores over each of the two bytes what it holds. -/
theorem State.readByte_pushWord_popWord (s : State) (a : Word) :
    (s.popWord.2.pushWord s.popWord.1).readByte a = s.readByte a := by
  have hlo : s.popWord.2.sp - 2 = s.sp := by rw [State.popWord_sp]; bv_omega
  have hhi : s.popWord.2.sp - 1 = s.sp + 1 := by rw [State.popWord_sp, BitVec.add_sub_cancel]
  rw [State.readByte_pushWord, hlo, hhi, State.popWord_value, lo8_pairWord, hi8_pairWord,
    State.readByte_congr s.popWord_mem]
  split_ifs with h₀ h₁
  · rw [h₀]
  · rw [h₁]
  · rfl

/-- A memory in canonical form comes back as the same list: the form determines the list from what it reads. -/
theorem State.pushWord_popWord_mem {s : State} (h : s.mem.wf = true) : (s.popWord.2.pushWord s.popWord.1).mem = s.mem :=
  State.mem_eq_of_readByte_eq h (State.wf_pushWord h) s.readByte_pushWord_popWord

/-- Settles O32: the two primitives are inverse; the responses change nothing in the block. -/
theorem pushPopAreInverse : Obligations.PushPopAreInverse := by
  refine ⟨fun s v => ?_, fun s => ?_⟩
  · refine ⟨({ s with mem := (s.pushWord v).mem, outbox := okReply 0 :: s.outbox } : State).ok v, ?_, rfl⟩
    calc performAll [.push v, .pop] s
        = .next (((s.ok 0).pushWord v).popWord.2.ok ((s.ok 0).pushWord v).popWord.1) := rfl
      _ = .next (({ s with mem := (s.pushWord v).mem, outbox := okReply 0 :: s.outbox } : State).ok v) := by
        rw [State.popWord_pushWord]; rfl
  · exact ⟨_, _, _, rfl, rfl, rfl,
      ⟨rfl, s.pushWord_popWord_sp, rfl, s.readByte_pushWord_popWord, rfl, rfl, rfl, rfl⟩, State.pushWord_popWord_mem⟩

/-! ## The rules (R100 to R105) -/

/-- Settles O26: the word is the encoding, the refusals are the row's, the response is the byte. -/
theorem memoryReadRule : Obligations.MemoryReadRule := by
  refine ⟨fun a => ?_, fieldRefusals .memrd, exec_memrd⟩
  exact decode_cmdWord (by simp [Instr.opcode, Opcode.code, Instr.bOperand, Instr.wOperand])

/-- Settles O27: the word is the encoding, and the row has no field to refuse. -/
theorem memoryWriteRule : Obligations.MemoryWriteRule := by
  refine ⟨fun a v => ?_, exec_memwr_effect⟩
  exact decode_cmdWord (by simp [Instr.opcode, Opcode.code, Instr.bOperand, Instr.wOperand])

/-- Settles O28: the word is the encoding, the refusals are the row's, and the sum of words is the wrap of R102. -/
theorem fetchByteRule : Obligations.FetchByteRule :=
  ⟨decode_encode .fetch8, fieldRefusals .fetch8, fun s => word_add_one_eq_ofNat s.pc ▸ exec_fetch8 s⟩

/-- Settles O29: FETCH16 reads what two FETCH8 read, the first of them the low byte. -/
theorem fetchWordRule : Obligations.FetchWordRule := by
  refine ⟨decode_encode .fetch16, fieldRefusals .fetch16, fun s => ⟨exec_fetch16 s, ?_⟩⟩
  exact ⟨_, _, (s.readByte s.pc).toNat, (s.readByte (s.pc + 1)).toNat, exec_fetch8 s, exec_fetch8 _, rfl,
    (s.readByte s.pc).isLt, (s.readByte (s.pc + 1)).isLt, rfl⟩

/-- Settles O30: the word is the encoding, the refusals are the row's, and the two bytes are the value's quotient and remainder. -/
theorem pushRule : Obligations.PushRule := by
  refine ⟨fun v => ?_, fieldRefusals .push, fun v s => ?_⟩
  · exact decode_cmdWord (by simp [Instr.opcode, Opcode.code, Instr.bOperand, Instr.wOperand])
  · rw [← lo8_eq_ofNat, ← hi8_eq_ofNat]
    exact exec_push_effect v s

/-- Settles O31: the word is the encoding, the refusals are the row's, the response is the two bytes on top. -/
theorem popRule : Obligations.PopRule :=
  ⟨decode_encode .pop, fieldRefusals .pop, exec_pop⟩

end Sys2Proof.Machine
end

section
/-! PROOFS. The program counter, the halted flag and the cycle counter (43_control_port_system.md). The words and the refusals come from the row, as
for register access; each command's effect is an equation. That the flag and the counter gate nothing (R118, R120) is one fact about both: a
command keeps step with a state in which they stand further on, unless it is the one that reads what differs. -/

namespace Sys2Proof.Machine

/-! ## What the commands do (R110, R111, R117 to R120) -/

theorem exec_getpc (s : State) : exec .getpc s = .next { s with outbox := okReply s.pc :: s.outbox } := rfl

theorem exec_setpc (v : Word) (s : State) :
    exec (.setpc v) s = .next { s with pc := v, outbox := okReply 0 :: s.outbox } := rfl

theorem exec_sethalt (s : State) : exec .sethalt s = .next { s with halted := true, outbox := okReply 0 :: s.outbox } := rfl

theorem exec_gethalt (s : State) :
    exec .gethalt s = .next { s with outbox := okReply (if s.halted = true then 0x0001 else 0x0000) :: s.outbox } := rfl

theorem exec_addcyc (n : Word) (s : State) :
    exec (.addcyc n) s = .next { s with cycle := s.cycle + n.toNat, outbox := okReply 0 :: s.outbox } := rfl

theorem exec_getcyc (s : State) :
    exec .getcyc s = .next { s with outbox := .response ⟨.ok, .count s.cycle⟩ :: s.outbox } := rfl

/-! ## Who writes the flag and the counter (R19, R20, R25) -/

/-- HALTED moves by SETHALT alone, and only to 1 (R117). -/
theorem exec_halted_cases {i : Instr} {s t : State} (h : exec i s = .next t) :
    (i = .sethalt ∧ t.halted = true) ∨ t.halted = s.halted := by
  cases i with
  | sethalt => cases h; exact .inl ⟨rfl, rfl⟩
  | set16 m v => cases h; exact .inr (s.writeR16_halted _ v)
  | portrd p => cases h; exact .inr (s.openWindow_halted _ _)
  | portwr p v => cases h; exact .inr (s.openWindow_halted _ _)
  | _ => cases h; exact .inr rfl

theorem exec_keeps_halted {i : Instr} {s t : State} (hs : s.halted = true) (h : exec i s = .next t) : t.halted = true := by
  obtain ⟨-, ht⟩ | ht := exec_halted_cases h
  · exact ht
  · exact ht.trans hs

/-- CYCLE moves by ADDCYC alone, by its operand (R119). -/
theorem exec_cycle_cases {i : Instr} {s t : State} (h : exec i s = .next t) :
    (∃ n, i = .addcyc n ∧ t.cycle = s.cycle + n.toNat) ∨ t.cycle = s.cycle := by
  cases i with
  | addcyc n => cases h; exact .inl ⟨n, rfl, rfl⟩
  | set16 m v => cases h; exact .inr (s.writeR16_cycle _ v)
  | portrd p => cases h; exact .inr (s.openWindow_cycle _ _)
  | portwr p v => cases h; exact .inr (s.openWindow_cycle _ _)
  | _ => cases h; exact .inr rfl

/-! ## Who reads them (R118, R120) -/

/-- The same state with HALTED set, if `b` says so, and CYCLE larger by `k`. So `advance true 0` sets the flag and nothing else, and `advance false k`
moves the counter and nothing else, both by definition. -/
def State.advance (s : State) (b : Bool) (k : Nat) : State := { s with halted := b || s.halted, cycle := s.cycle + k }

theorem State.setHalted_advance (s : State) (b : Bool) (k : Nat) :
    { s.advance b k with halted := true } = ({ s with halted := true } : State).advance b k := by
  simp [State.advance]

theorem State.addCycle_advance (s : State) (b : Bool) (k n : Nat) :
    { s.advance b k with cycle := (s.advance b k).cycle + n } = ({ s with cycle := s.cycle + n } : State).advance b k := by
  simp [State.advance, Nat.add_right_comm]

theorem State.writeR16_advance (s : State) (b : Bool) (k : Nat) (m : Reg16) (v : Word) :
    (s.advance b k).writeR16 m v = (s.writeR16 m v).advance b k := by
  cases m <;> rfl

@[simp] theorem State.advance_svc (s : State) (b : Bool) (k : Nat) : (s.advance b k).svc = s.svc := rfl

theorem State.openWindow_advance (s : State) (b : Bool) (k : Nat) (d : PortDir) (q : PortReq) :
    (s.advance b k).openWindow d q = (s.openWindow d q).advance b k := by
  unfold State.openWindow
  rw [State.advance_svc]
  split <;> rfl

/-- Only GETHALT depends on HALTED and only GETCYC on CYCLE: from a state in which these stand further on every other command does the same,
the difference kept. -/
theorem exec_advance {i : Instr} {s t : State} {b : Bool} {k : Nat} (hb : i = .gethalt → b = false) (hk : i = .getcyc → k = 0)
    (h : exec i s = .next t) : exec i (s.advance b k) = .next (t.advance b k) := by
  cases i with
  | gethalt => obtain rfl := hb rfl; cases h; rfl
  | getcyc => obtain rfl := hk rfl; cases h; rfl
  | sethalt => cases h; exact congrArg (fun u => Host.Outcome.next (u.ok 0)) (s.setHalted_advance b k)
  | addcyc n => cases h; exact congrArg (fun u => Host.Outcome.next (u.ok 0)) (s.addCycle_advance b k n.toNat)
  | set16 m v => cases h; exact congrArg (fun u => Host.Outcome.next (u.ok 0)) (s.writeR16_advance b k _ v)
  | portrd p => cases h; exact congrArg _ (s.openWindow_advance b k _ _)
  | portwr p v => cases h; exact congrArg _ (s.openWindow_advance b k _ _)
  | _ => cases h; rfl

/-! ## The rules -/

/-- Settles O41: the words are the encodings, the refusals are the rows'; SETHALT alone writes the flag, and GETHALT alone reads it. -/
theorem haltedFlagRules : Obligations.HaltedFlagRules := by
  refine ⟨decode_encode .sethalt, fieldRefusals .sethalt, exec_sethalt, decode_encode .gethalt, fieldRefusals .gethalt,
    exec_gethalt, fun _ _ _ _ => exec_gethalt _, fun i s hs => ?_, fun i s t hi h => ?_⟩
  · obtain ⟨t, ht⟩ := exec_next i s
    exact ⟨t, ht, exec_keeps_halted hs ht⟩
  · exact exec_advance (b := true) (k := 0) (fun hg => absurd hg hi) (fun _ => rfl) h

/-- Settles O42: the words are the encodings, the refusals are the rows'; ADDCYC alone writes the counter, and GETCYC alone reads it. -/
theorem cycleCounterRules : Obligations.CycleCounterRules := by
  refine ⟨fun n => ?_, fieldRefusals .addcyc, exec_addcyc, decode_encode .getcyc, fieldRefusals .getcyc, exec_getcyc,
    fun _ _ _ _ => exec_getcyc _, fun i s t hi h => ?_, fun i s t k hi h => ?_⟩
  · exact decode_cmdWord (by simp [Instr.opcode, Opcode.code, Instr.bOperand, Instr.wOperand])
  · obtain ⟨n, hn, -⟩ | ht := exec_cycle_cases h
    · exact absurd hn (hi n)
    · exact ht
  · exact exec_advance (b := false) (fun _ => rfl) (fun hg => absurd hg hi) h

/-- Settles O34: the words are the encodings, the refusals are the rows'; the fetch after SETPC reads at the PC just written. -/
theorem programCounterRules : Obligations.ProgramCounterRules := by
  refine ⟨decode_encode .getpc, fieldRefusals .getpc, exec_getpc, fun v => ?_, fieldRefusals .setpc, fun v s =>
    ⟨exec_setpc v s, _, _, exec_setpc v s, exec_fetch8 _, rfl⟩⟩
  exact decode_cmdWord (by simp [Instr.opcode, Opcode.code, Instr.bOperand, Instr.wOperand])

end Sys2Proof.Machine
end

section
/-! PROOFS. The exceptions family (60_exceptions.md), the one exception of the block: `BadCommand` (R131, R132, R134). The shared idea is the condition
under which a state refuses a word with a cause; a word it refuses gets `ERR` and nothing else happens, and any other word is answered with no `ERR`. The
table's columns then say which cause, if any, that is. -/

namespace Sys2Proof.Machine

/-! ## A refused word (R131) -/

/-- The state refuses a word with a cause: the decoder does, or a port command finds a window open (R73, R115). -/
def State.Refuses (s : State) (w : Cmd) (c : Cause) : Prop :=
  decode w = .error c ∨ (c = .portBusy ∧ s.svc ≠ none ∧ ∃ i, decode w = .ok i ∧ IsPort i)

/-- A port command is an attempt to open the window (R113, R114). -/
theorem exec_of_isPort {i : Instr} (h : IsPort i) : ∃ d q, ∀ s : State, exec i s = .next (s.openWindow d q) := by
  cases i with
  | portrd p => exact ⟨_, _, fun _ => rfl⟩
  | portwr p v => exact ⟨_, _, fun _ => rfl⟩
  | _ => exact h.elim

theorem State.openWindow_of_open {s : State} (h : s.svc ≠ none) (d : PortDir) (q : PortReq) :
    s.openWindow d q = s.badCommand .portBusy := by
  obtain ⟨hn, -⟩ | ⟨-, hb⟩ := s.openWindow_cases d q
  · exact absurd hn h
  · exact hb

theorem State.openWindow_of_closed {s : State} (h : s.svc = none) (d : PortDir) (q : PortReq) :
    s.openWindow d q = { s with svc := some d, outbox := .portReq q :: s.outbox } := by
  obtain ⟨-, hq⟩ | ⟨⟨e, he⟩, -⟩ := s.openWindow_cases d q
  · exact hq
  · exact nomatch h.symm.trans he

theorem receiveWord_of_refuses {s : State} {w : Cmd} {c : Cause} (h : s.Refuses w c) :
    receiveWord w s = .next (s.badCommand c) := by
  obtain he | ⟨rfl, hsvc, i, hi, hport⟩ := h
  · exact receiveWord_of_error he s
  · obtain ⟨d, q, hx⟩ := exec_of_isPort hport
    rw [receiveWord_of_ok hi, hx, State.openWindow_of_open hsvc]

theorem step_of_command {s : State} {w : Cmd} {rest : List Event} (hp : s.phase.isEnded = false)
    (hi : s.inbox = .command w :: rest) : step s = receiveWord w { s with inbox := rest } :=
  receive_of_event hp hi

/-- Neither taking an event off the inbox nor a refusal touches the block. -/
theorem State.sameBlock_badCommand (s : State) (rest : List Event) (c : Cause) :
    s.SameBlock (({ s with inbox := rest } : State).badCommand c) :=
  ⟨rfl, rfl, rfl, fun _ => rfl, rfl, rfl, rfl, rfl⟩

/-- Settles O2: whichever way the word is refused, the step is the one operation `State.badCommand`. -/
theorem refusedWordChangesNothing : Obligations.RefusedWordChangesNothing := by
  intro s w rest c hp hi hc
  have hr : ({ s with inbox := rest } : State).Refuses w c := hc
  exact ⟨_, (step_of_command hp hi).trans (receiveWord_of_refuses hr), s.sameBlock_badCommand rest c, rfl, rfl, rfl⟩

/-! ## A word that is not refused (R61, R130) -/

/-- A command that is no port command responds once, with `OK`. -/
theorem exec_outbox_of_not_isPort {i : Instr} {s t : State} (hport : ¬ IsPort i) (h : exec i s = .next t) :
    ∃ data, t.outbox = .response ⟨.ok, data⟩ :: s.outbox := by
  cases i with
  | portrd p => exact absurd trivial hport
  | portwr p v => exact absurd trivial hport
  | set16 m v => cases h; exact ⟨_, congrArg _ (s.writeR16_outbox _ v)⟩
  | _ => cases h; exact ⟨_, rfl⟩

/-- Outside the case of R115 a command sends one output, and it is no refusal: `OK`, or the request of a port command. -/
theorem exec_outbox_of_not_busy {i : Instr} {s t : State} (hbusy : ¬ (IsPort i ∧ s.svc ≠ none)) (h : exec i s = .next t) :
    ∃ r, t.outbox = r :: s.outbox ∧ ∀ n, r ≠ errReply n := by
  by_cases hport : IsPort i
  · have hsvc : s.svc = none := not_not.mp (not_and.mp hbusy hport)
    obtain ⟨d, q, hx⟩ := exec_of_isPort hport
    rw [hx, State.openWindow_of_closed hsvc] at h
    cases h
    exact ⟨.portReq q, rfl, fun _ => nofun⟩
  · obtain ⟨data, ho⟩ := exec_outbox_of_not_isPort hport h
    exact ⟨_, ho, fun _ => nofun⟩

/-! ## Which cause (R132, R134) -/

theorem isPort_iff_opcode (i : Instr) : IsPort i ↔ i.opcode = .portrd ∨ i.opcode = .portwr := by
  cases i <;> simp [IsPort, Instr.opcode]

theorem decode_of_no_row {w : Cmd} (h : ∀ o : Opcode, o.isOpcodeOf w = false) : decode w = .error .reservedOpcode := by
  obtain ⟨-, he⟩ | ⟨o, ho, -⟩ := decode_cases w
  · exact he
  · exact absurd ((o.isOpcodeOf_iff w).mpr ho) (Bool.eq_false_iff.mp (h o))

theorem decode_of_bad_field {o : Opcode} {w : Cmd} (ho : o.isOpcodeOf w = true) (hf : o.fieldsOk w = false) :
    decode w = .error .reservedField :=
  fieldRefusals o w ((o.isOpcodeOf_iff w).mp ho) (ne_of_beq_false hf)

theorem decode_of_bad_operand {o : Opcode} {w : Cmd} (ho : o.isOpcodeOf w = true) (hf : o.fieldsOk w = true)
    (hn : o.operandOk w = false) : decode w = .error .reservedName :=
  nameRefusals o (fun _ h => h) w ((o.isOpcodeOf_iff w).mp ho) (eq_of_beq hf) hn

/-- Settles O3: each of the row's checks that fails is the cause of its own code; a word that passes them all is its row's instruction, refused only
as a port command in an open window. -/
theorem lowestCauseIsReported : Obligations.LowestCauseIsReported := by
  intro s w rest hp hi refused
  have hrefused {c : Cause} (h : s.Refuses w c) : refused c.code := by
    obtain ⟨t, hstep, hblock, hout, -, -⟩ := refusedWordChangesNothing s w rest c hp hi h
    exact ⟨t, hstep, hblock, hout⟩
  refine ⟨fun hno => hrefused (.inl (decode_of_no_row hno)), fun o ho =>
    ⟨fun hf => hrefused (.inl (decode_of_bad_field ho hf)),
      fun hf hn => hrefused (.inl (decode_of_bad_operand ho hf hn)), fun hf hn hport hsvc => ?_, fun hf hn hbusy => ?_⟩⟩
  all_goals obtain ⟨i, hdec, rfl⟩ := decode_of_admits ((o.admits_iff_checks w).mpr ⟨ho, hf, hn⟩)
  · exact hrefused (.inr ⟨rfl, hsvc, i, hdec, (isPort_iff_opcode i).mpr hport⟩)
  · rw [← isPort_iff_opcode] at hbusy
    obtain ⟨t, ht⟩ := exec_next i { s with inbox := rest }
    obtain ⟨r, hout, hr⟩ := exec_outbox_of_not_busy (s := { s with inbox := rest }) hbusy ht
    exact ⟨t, r, (step_of_command hp hi).trans ((receiveWord_of_ok hdec _).trans ht), hout, hr⟩

end Sys2Proof.Machine
end

section
/-! PROOFS. The family of reset and hazards (70_reset_and_hazards.md). A byte stored is fetched as stored because a store touches neither PC nor any byte
but its own (R176). The loader's writes are an overlay, and bytes that end by the top of memory overlay it without going round (R162, R163). Both
routes of stack preparation have one and the same effect, so they agree (R165). -/

namespace Sys2Proof.Machine

/-! ## A store, then the fetch of its byte (R176) -/

/-- FETCH8 after a store that leaves PC alone answers the byte that memory then holds at PC. -/
theorem exec_fetch8_after_store {i : Instr} {s t : State} {v : Byte} (h : exec i s = .next t) (hpc : t.pc = s.pc)
    (hout : t.outbox = okReply 0 :: s.outbox) (hbyte : t.readByte s.pc = v) :
    ∃ t u, exec i s = .next t ∧ exec .fetch8 t = .next u ∧
      u.outbox = okReply (BitVec.ofNat 16 v.toNat) :: okReply 0 :: s.outbox := by
  refine ⟨t, _, h, exec_fetch8 t, ?_⟩
  rw [hpc, hbyte, hout]

theorem exec_memwr_fetch8 (s : State) (v : Byte) :
    ∃ t u, exec (.memwr s.pc v) s = .next t ∧ exec .fetch8 t = .next u ∧
      u.outbox = okReply (BitVec.ofNat 16 v.toNat) :: okReply 0 :: s.outbox := by
  obtain ⟨t, h, hf, hr⟩ := exec_memwr_effect s.pc v s
  exact exec_fetch8_after_store h (by rw [hf]) (by rw [hf]) ((hr s.pc).trans (if_pos rfl))

/-- The fetch after a PUSH answers the low byte or the high byte, as PC is the one's address or the other's. -/
theorem exec_push_fetch8 {s : State} {x : Word} {v : Byte}
    (h : (if s.pc = s.sp - 2 then lo8 x else if s.pc = s.sp - 1 then hi8 x else s.readByte s.pc) = v) :
    ∃ t u, exec (.push x) s = .next t ∧ exec .fetch8 t = .next u ∧
      u.outbox = okReply (BitVec.ofNat 16 v.toNat) :: okReply 0 :: s.outbox := by
  obtain ⟨t, ht, hf, hr⟩ := exec_push_effect x s
  exact exec_fetch8_after_store ht (by rw [hf]) (by rw [hf]) ((hr s.pc).trans h)

/-- Settles O33: SETIND is MEMWR at the effective address, and the two bytes of PUSH lie at different addresses. -/
theorem storeIsFetchedAtOnce : Obligations.StoreIsFetchedAtOnce := by
  refine fun s v x => ⟨exec_memwr_fetch8 s v, fun hea => ?_, fun hlo => ?_, fun hhi => ?_⟩
  · rw [exec_setind_eq_memwr hea]
    exact exec_memwr_fetch8 s v
  · rw [← toNat_lo8]
    exact exec_push_fetch8 (if_pos hlo)
  · have hne : s.pc ≠ s.sp - 2 := fun hlo => word_sub_two_ne_sub_one s.sp (hlo.symm.trans hhi)
    rw [← toNat_hi8]
    exact exec_push_fetch8 ((if_neg hne).trans (if_pos hhi))

/-! ## Loading (R162, R163) -/

/-- Bytes that end by the top of memory overlay no address below their base: they do not go round. -/
theorem overlay_of_fits {base : Word} {bytes : List Byte} (h : base.toNat + bytes.length ≤ 65536) (f : Word → Byte) (a : Word) :
    overlay base bytes f a =
      if base.toNat ≤ a.toNat then (bytes[a.toNat - base.toNat]?).getD (f a) else f a := by
  split
  · next hle => rw [overlay, BitVec.toNat_sub_of_le (BitVec.le_def.mpr hle)]
  · next hlt => exact overlay_of_le (by bv_omega)

/-- A run of MEMWR whose bytes end by the top of memory: byte `i` at `base + i`, all else as it was. -/
theorem performAll_writeBytes_of_fits {base : Word} {bytes : List Byte} (h : base.toNat + bytes.length ≤ 65536) (s : State) :
    ∃ t, performAll (writeBytes base bytes) s = .next t ∧ t = { s with mem := t.mem, outbox := t.outbox } ∧
      ∀ a : Word, t.readByte a =
        if base.toNat ≤ a.toNat then (bytes[a.toNat - base.toNat]?).getD (s.readByte a) else s.readByte a := by
  obtain ⟨t, ht, hf, hr⟩ := performAll_writeBytes bytes base s
  exact ⟨t, ht, hf, fun a => (hr (by omega) a).trans (overlay_of_fits h s.readByte a)⟩

/-- The capacity is what lies between the base and the top of memory, so a truncated file ends there at the latest (R163). -/
theorem loadedBytes_transient_fits (p : EnvParams) (file : List Byte) :
    p.tpaBase.toNat + (loadedBytes p (.transient file)).length ≤ 65536 := by
  have hbase := addr_lt_memSize p.tpaBase
  simp only [loadedBytes, Config.memSize, List.length_take] at hbase ⊢
  omega

/-- Truncation loses no byte that has an address: up to 0xFFFF the truncated file is the file. -/
theorem getElem?_loadedBytes_transient (p : EnvParams) (file : List Byte) {a : Word} (h : p.tpaBase.toNat ≤ a.toNat) :
    (loadedBytes p (.transient file))[a.toNat - p.tpaBase.toNat]? = file[a.toNat - p.tpaBase.toNat]? :=
  List.getElem?_take_of_lt (Nat.sub_lt_sub_right h (addr_lt_memSize a))

/-- Settles O55: what is loaded ends by the top of memory, a file because it is truncated and an image by hypothesis. -/
theorem imageIsLoaded : Obligations.ImageIsLoaded := by
  refine fun p bytes s => ⟨⟨rfl, ?_⟩, fun hfits => ⟨rfl, performAll_writeBytes_of_fits hfits s⟩⟩
  obtain ⟨t, ht, hf, hr⟩ := performAll_writeBytes_of_fits (loadedBytes_transient_fits p bytes) s
  refine ⟨t, ht, hf, fun a => (hr a).trans ?_⟩
  split
  · next hle => rw [getElem?_loadedBytes_transient p bytes hle]
  · rfl

/-! ## Stack preparation (R165) -/

/-- `t` is `s` with the zero sentinel on the stack: SP points at it, its two bytes are zero, and beside them only the responses may differ. -/
structure SentinelStack (p : EnvParams) (s t : State) : Prop where
  frame : t = { s with sp := p.tpaStack, mem := t.mem, outbox := t.outbox }
  bytes : ∀ a, t.readByte a = if a = p.tpaStack ∨ a = p.tpaStack + 1 then 0 else s.readByte a

theorem SentinelStack.sp_eq {p : EnvParams} {s t : State} (h : SentinelStack p s t) : t.sp = p.tpaStack :=
  congrArg State.sp h.frame

/-- The effect determines the block. -/
theorem SentinelStack.sameBlock {p : EnvParams} {s t u : State} (ht : SentinelStack p s t) (hu : SentinelStack p s u) :
    State.SameBlock t u := by
  have hread : ∀ a, u.readByte a = t.readByte a := fun a => (hu.bytes a).trans (ht.bytes a).symm
  refine ⟨?_, ?_, ?_, hread, ?_, ?_, ?_, ?_⟩ <;> rw [hu.frame, ht.frame]

/-- SP is its own name under every selector (R12, R91). -/
theorem exec_set16_sp (v : Word) (s : State) :
    exec (.set16 .sp v) s = .next { s with sp := v, outbox := okReply 0 :: s.outbox } := rfl

theorem stackPrepCommands_effect (p : EnvParams) (s : State) :
    ∃ t, performAll (stackPrepCommands p) s = .next t ∧ SentinelStack p s t := by
  obtain ⟨s₁, h₁, hf₁, hr₁⟩ := exec_memwr_effect p.tpaStack 0 s
  obtain ⟨s₂, h₂, hf₂, hr₂⟩ := exec_memwr_effect (p.tpaStack + 1) 0 s₁
  refine ⟨{ s₂ with sp := p.tpaStack, outbox := okReply 0 :: s₂.outbox }, ?_, ?_, fun a => ?_⟩
  · rw [stackPrepCommands, performAll_cons _ h₁, performAll_cons _ h₂, performAll_cons _ (exec_set16_sp _ _)]; rfl
  · rw [hf₂, hf₁]
  · refine (hr₂ a).trans ?_
    rw [hr₁, ite_or]
    by_cases h : a = p.tpaStack <;> simp [h]

/-- The other route: SP two above the sentinel, and PUSH stores its two bytes below. -/
theorem setSpPushZero_effect (p : EnvParams) (s : State) :
    ∃ u, performAll [.set16 .sp (p.tpaStack + 2), .push 0] s = .next u ∧ SentinelStack p s u := by
  have hlo : p.tpaStack + 2 - 2 = p.tpaStack := BitVec.add_sub_cancel _ _
  have hhi : p.tpaStack + 2 - 1 = p.tpaStack + 1 := by bv_omega
  obtain ⟨u, hu, hf, hr⟩ :=
    exec_push_effect 0 { s with sp := p.tpaStack + 2, outbox := okReply 0 :: s.outbox }
  refine ⟨u, ?_, ?_, fun a => (hr a).trans ?_⟩
  · rw [performAll_cons _ (exec_set16_sp _ _), performAll_cons _ hu]; rfl
  · rw [hf, hlo]
  · rw [hlo, hhi, ite_or]; rfl

/-- The POP that follows answers the sentinel and leaves SP above it. -/
theorem exec_pop_of_sentinelStack {p : EnvParams} {s t : State} (h : SentinelStack p s t) :
    exec .pop t = .next { t with sp := p.tpaStack + 2, outbox := okReply 0x0000 :: t.outbox } := by
  rw [exec_pop, h.sp_eq, h.bytes, h.bytes, if_pos (.inr rfl), if_pos (.inl rfl)]; rfl

/-- Settles O56: both routes put the sentinel on the stack, and the POP reads it there. -/
theorem sentinelStackIsPrepared : Obligations.SentinelStackIsPrepared := by
  intro p s
  obtain ⟨t, ht, htp⟩ := stackPrepCommands_effect p s
  obtain ⟨u, hu, hup⟩ := setSpPushZero_effect p s
  exact ⟨fun _ => rfl, fun _ => rfl, t, u, ht, htp.sp_eq, htp.bytes, exec_pop_of_sentinelStack htp, hu, htp.sameBlock hup⟩

end Sys2Proof.Machine
end

section
/-! PROOFS. The rest: what is said of the machine as a whole. Four ideas carry it. Encoding and decoding are inverse because both go through the three
fields of a word. A step that goes on is one of the nine kinds of `EventStep`, and each property of steps (the invariant, the mark, what never goes
back, how a run ends) is read off these kinds. In an open window a word does no more than `HandlerFrame` says. And words waiting in the
inbox are performed by the machine's own steps (`run_words`), which gives the port access and the loader. -/

namespace Sys2Proof

/-! ## The two directions of the encoding (R60 to R73) -/

/-- Where the high byte of field `w` is zero, the field is its low byte. -/
theorem wField_of_wHigh_eq_zero {w : Cmd} (h : wHigh w = 0) : (wLow w).setWidth 16 = wField w := by
  have hz : (wHigh w).toNat = 0 := congrArg BitVec.toNat h
  apply BitVec.eq_of_toNat_eq
  rw [toNat_wHigh] at hz
  rw [BitVec.toNat_setWidth, toNat_wLow, toNat_wField]; omega

theorem Format.mbzOk_z {w : Cmd} (h : Format.mbzOk .z w = true) : bField w = 0 ∧ wField w = 0 := by
  simpa [Format.mbzOk] using h

theorem Opcode.operands_of_build {o : Opcode} {w : Cmd} {i : Instr} (hm : o.format.mbzOk w = true) (hb : o.build w = some i) :
    i.bOperand = bField w ∧ i.wOperand = wField w := by
  cases o with
  | get8 =>
    obtain ⟨r, hr, rfl⟩ := Option.map_eq_some_iff.mp hb
    exact ⟨Reg8.code_of_ofCode hr, (beq_iff_eq.mp hm).symm⟩
  | set8 =>
    obtain ⟨r, hr, rfl⟩ := Option.map_eq_some_iff.mp hb
    exact ⟨Reg8.code_of_ofCode hr, wField_of_wHigh_eq_zero (beq_iff_eq.mp hm)⟩
  | get16 =>
    obtain ⟨m, hr, rfl⟩ := Option.map_eq_some_iff.mp hb
    exact ⟨Reg16.code_of_ofCode hr, (beq_iff_eq.mp hm).symm⟩
  | set16 =>
    obtain ⟨m, hr, rfl⟩ := Option.map_eq_some_iff.mp hb
    exact ⟨Reg16.code_of_ofCode hr, rfl⟩
  | setctx =>
    obtain ⟨c, hc, rfl⟩ := Option.map_eq_some_iff.mp hb
    refine ⟨rfl, ?_⟩
    rw [← wField_of_wHigh_eq_zero (beq_iff_eq.mp hm), ← Selector.code_of_ofCode hc]; rfl
  | setind => cases hb; exact ⟨rfl, (beq_iff_eq.mp hm).symm⟩
  | memrd | push | setpc | portrd | addcyc => cases hb; exact ⟨(beq_iff_eq.mp hm).symm, rfl⟩
  | memwr | portwr => cases hb; exact ⟨rfl, rfl⟩
  | _ =>
    cases hb
    obtain ⟨hbz, hwz⟩ := Format.mbzOk_z hm
    exact ⟨hbz.symm, hwz.symm⟩

theorem encode_of_decode {w : Cmd} {i : Instr} (h : decode w = .ok i) : encode i = w := by
  obtain ⟨hop, hmbz, hbuild⟩ := decode_ok_inv h
  obtain ⟨hb, hw⟩ := Opcode.operands_of_build hmbz hbuild
  apply cmd_ext
  · rw [opField_encode, hop]
  · rw [bField_encode, hb]
  · rw [wField_encode, hw]

end Sys2Proof

namespace Sys2Proof.Machine

/-- Settles O5: a row's three checks pass on its instruction's word, and the operands come back from their fields. -/
theorem decodeOfEncode : Obligations.DecodeOfEncode := decode_encode

/-- Settles O6: the fields of an accepted word are its instruction's opcode and operands. -/
theorem encodeOfDecode : Obligations.EncodeOfDecode := fun _ _ => encode_of_decode

/-- Settles O8: the eleven accepted words are encodings, and the three others fail the decoder's checks in turn. -/
theorem writtenOutWordsDecode : Obligations.WrittenOutWordsDecode :=
  ⟨decode_encode (.get8 .h), decode_encode (.set8 .l 0x5A), decode_encode (.get16 .ix), decode_encode (.set16 .sp 0xFFFF),
    decode_encode (.setctx .iy 0xFD), decode_encode (.setind 0x9C), decode_encode (.memwr 0xFFFF 0x76), decode_encode .fetch16,
    decode_encode (.push 0xBEEF), decode_encode (.portwr 0x0001 0x41), decode_encode (.addcyc 0xFFFF),
    decode_eq_opcode (by decide), decode_eq_field (o := .get8) (by decide) (by decide),
    decode_eq_name (o := .set16) (by decide) (by decide) (by decide)⟩

/-! ## Cells, context, effective address (R14, R90 to R92, R173) -/

theorem notMem_pairCells_of_halves {m : Reg16} {n : Reg8}
    (h : ∀ hi lo, Reg16.halves m = some (hi, lo) → n ≠ hi ∧ n ≠ lo) : n ∉ pairCells m := by
  cases hh : Reg16.halves m with
  | none => simp [pairCells, hh]
  | some p => simpa [pairCells, hh] using h p.1 p.2 hh

/-- Settles O15: a read after a raw write is the write's value in its own cell alone, and a pair without that cell does not see it. -/
theorem cellsAreDisjoint : Obligations.CellsAreDisjoint := by
  refine fun s n v => ⟨?_, fun k hk => ?_, rfl, fun m hm => ?_⟩
  · rw [State.readR8_writeR8, if_pos rfl]
  · rw [State.readR8_writeR8, if_neg hk]
  · exact State.readR16_writeR8_of_notMem (notMem_pairCells_of_halves hm) s v

/-- Settles O19: the word the resolver computes is the one that satisfies R92. -/
theorem effectiveAddressRule : Obligations.EffectiveAddressRule :=
  fun s => (isEffectiveAddress_iff s _).mpr rfl

theorem selReg_ne_literal {c : Selector} (h : c ≠ .hl) : selReg c ≠ .hl := by
  cases c with
  | hl => exact absurd rfl h
  | _ => decide

/-- Under an index context no command works on the literal H or L (R90 to R92). -/
theorem literal_notMem_accessedCells {c : Selector} (h : c ≠ .hl) (i : Instr) :
    .h ∉ accessedCells c i ∧ .l ∉ accessedCells c i := by
  cases i with
  | get8 r | set8 r v =>
    obtain ⟨hh, hl⟩ := tr8_ne_literal h r
    exact ⟨mt List.mem_singleton.mp hh.symm, mt List.mem_singleton.mp hl.symm⟩
  | get16 m | set16 m v => exact literal_notMem_pairCells (tr16_ne_literal h m)
  | getind | setind v => exact literal_notMem_pairCells (selReg_ne_literal h)
  | _ => exact ⟨List.not_mem_nil, List.not_mem_nil⟩

/-- Settles O25: a command does the same from a state that differs in a cell it does not work on, here in H and then in L. -/
theorem literalHLUnseenUnderIndexContext : Obligations.LiteralHLUnseenUnderIndexContext := by
  intro i s t x y hc h
  obtain ⟨hh, hl⟩ := literal_notMem_accessedCells hc i
  exact exec_writeR8_of_not_accessed (s := s.writeR8 .h x) hl (exec_writeR8_of_not_accessed hh h x) y

theorem exec_ctx {i : Instr} {s t : State} (h : exec i s = .next t) : t.ctx = ctxAfter s.ctx [i] := by
  cases i with
  | set16 m v => cases h; exact s.writeR16_ctx _ v
  | portrd p => cases h; exact s.openWindow_ctx _ _
  | portwr p v => cases h; exact s.openWindow_ctx _ _
  | _ => cases h; rfl

theorem ctxAfter_cons (c : Ctx) (i : Instr) (is : List Instr) : ctxAfter c (i :: is) = ctxAfter (ctxAfter c [i]) is := rfl

theorem performAll_ctx (is : List Instr) (s : State) : ∃ t, performAll is s = .next t ∧ t.ctx = ctxAfter s.ctx is := by
  induction is generalizing s with
  | nil => exact ⟨s, rfl, rfl⟩
  | cons i is ih =>
    obtain ⟨u, hu⟩ := exec_next i s
    obtain ⟨t, ht, hctx⟩ := ih u
    exact ⟨t, (performAll_cons is hu).trans ht, by rw [hctx, exec_ctx hu, ← ctxAfter_cons]⟩

/-- Settles O49: each command moves the context as `ctxAfter` says, by induction on the sequence. -/
theorem contextAfterASequence : Obligations.ContextAfterASequence := by
  intro is s
  obtain ⟨t, ht, hctx⟩ := performAll_ctx is s
  exact ⟨t, ht, hctx, fun hr hs => (hctx.trans (congrArg (ctxAfter · is) hs)).trans hr⟩

theorem exec_keeps_dispClear {i : Instr} {s t : State} (hi : NoStaleDisp i) (hs : s.DispClear) (h : exec i s = .next t) :
    t.DispClear := by
  intro hsel
  obtain ⟨sel, d, rfl, ht⟩ | ht := exec_ctx_cases h
  · rw [ht] at hsel ⊢
    obtain rfl : sel = .hl := hsel
    exact hi
  · rw [ht] at hsel ⊢
    exact hs hsel

/-- Under the selector HL and with no displacement the effective address is the literal HL (R92). -/
theorem ea_of_dispClear {s : State} (hs : s.DispClear) (hsel : s.ctx.sel = .hl) :
    ea s.ctx s = composed (s.regs.get .h) (s.regs.get .l) := by
  have hd : sext16 (effDisp s.ctx) = 0 := by rw [effDisp_eq, hs hsel]; rfl
  rw [ea, hd, hsel]
  exact BitVec.add_zero _

/-- Settles O50: SETCTX alone moves the context, and without a displacement the indirect read is the direct one at HL. -/
theorem noStaleDisplacement : Obligations.NoStaleDisplacement :=
  ⟨fun _ _ _ => exec_keeps_dispClear, fun s hs hsel =>
    exec_getind_eq_memrd ((isEffectiveAddress_iff s _).mpr (ea_of_dispClear hs hsel).symm)⟩

/-! ## Who writes what (R25) -/

theorem exec_sp_cases {i : Instr} {s t : State} (h : exec i s = .next t) :
    (∃ m v, i = .set16 m v) ∨ (∃ v, i = .push v) ∨ i = .pop ∨ t.sp = s.sp := by
  cases i with
  | set16 m v => exact .inl ⟨m, v, rfl⟩
  | push v => exact .inr (.inl ⟨v, rfl⟩)
  | pop => exact .inr (.inr (.inl rfl))
  | portrd p => cases h; exact .inr (.inr (.inr (s.openWindow_sp _ _)))
  | portwr p v => cases h; exact .inr (.inr (.inr (s.openWindow_sp _ _)))
  | _ => cases h; exact .inr (.inr (.inr rfl))

theorem exec_pc_cases {i : Instr} {s t : State} (h : exec i s = .next t) :
    i = .fetch8 ∨ i = .fetch16 ∨ (∃ v, i = .setpc v) ∨ t.pc = s.pc := by
  cases i with
  | fetch8 => exact .inl rfl
  | fetch16 => exact .inr (.inl rfl)
  | setpc v => exact .inr (.inr (.inl ⟨v, rfl⟩))
  | set16 m v => cases h; exact .inr (.inr (.inr (s.writeR16_pc _ v)))
  | portrd p => cases h; exact .inr (.inr (.inr (s.openWindow_pc _ _)))
  | portwr p v => cases h; exact .inr (.inr (.inr (s.openWindow_pc _ _)))
  | _ => cases h; exact .inr (.inr (.inr rfl))

/-- Memory moves by the three storing commands: one byte, or PUSH's two (R96, R101, R104). -/
theorem exec_mem_cases {i : Instr} {s t : State} (h : exec i s = .next t) :
    (∃ a v, (i = .setind v ∨ i = .memwr a v) ∧ t.mem = (s.writeByte a v).mem) ∨
    (∃ v, i = .push v ∧ t.mem = (s.pushWord v).mem) ∨
    t.mem = s.mem := by
  cases i with
  | setind v => cases h; exact .inl ⟨_, v, .inl rfl, rfl⟩
  | memwr a v => cases h; exact .inl ⟨a, v, .inr rfl, rfl⟩
  | push v => cases h; exact .inr (.inl ⟨v, rfl, rfl⟩)
  | set16 m v => cases h; exact .inr (.inr (s.writeR16_mem _ v))
  | portrd p => cases h; exact .inr (.inr (s.openWindow_mem _ _))
  | portwr p v => cases h; exact .inr (.inr (s.openWindow_mem _ _))
  | _ => cases h; exact .inr (.inr rfl)

theorem exec_svc_of_not_isPort {i : Instr} {s t : State} (hport : ¬ IsPort i) (h : exec i s = .next t) : t.svc = s.svc := by
  cases i with
  | portrd p => exact absurd trivial hport
  | portwr p v => exact absurd trivial hport
  | set16 m v => cases h; exact s.writeR16_svc _ v
  | _ => cases h; rfl

theorem exec_inbox {i : Instr} {s t : State} (h : exec i s = .next t) : t.inbox = s.inbox := by
  cases i with
  | set16 m v => cases h; exact s.writeR16_inbox _ v
  | portrd p => cases h; exact s.openWindow_inbox _ _
  | portwr p v => cases h; exact s.openWindow_inbox _ _
  | _ => cases h; rfl

theorem exec_phase {i : Instr} {s t : State} (h : exec i s = .next t) : t.phase = s.phase := by
  cases i with
  | set16 m v => cases h; exact s.writeR16_phase _ v
  | portrd p => cases h; exact s.openWindow_phase _ _
  | portwr p v => cases h; exact s.openWindow_phase _ _
  | _ => cases h; rfl

/-- Settles O45: each clause from the lemma that names who writes that piece of the state. -/
theorem accessSummary : Obligations.AccessSummary := by
  refine fun i s t h => ⟨fun h8 h16 => ?_, fun h16 hpush hpop => ?_, fun hf8 hf16 hset => ?_, fun hind hwr hpush => ?_,
    fun hset => ?_, fun hset => ?_, fun hadd => ?_, fun hport => exec_svc_of_not_isPort hport h, exec_inbox h, exec_phase h⟩
  · obtain ⟨r, v, hi, -⟩ | ⟨m, v, hi, -⟩ | ht := exec_regs_cases h
    · exact absurd hi (h8 r v)
    · exact absurd hi (h16 m v)
    · exact ht
  · obtain ⟨m, v, hi⟩ | ⟨v, hi⟩ | hi | ht := exec_sp_cases h
    · exact absurd hi (h16 m v)
    · exact absurd hi (hpush v)
    · exact absurd hi hpop
    · exact ht
  · obtain hi | hi | ⟨v, hi⟩ | ht := exec_pc_cases h
    · exact absurd hi hf8
    · exact absurd hi hf16
    · exact absurd hi (hset v)
    · exact ht
  · obtain ⟨a, v, hi | hi, -⟩ | ⟨v, hi, -⟩ | ht := exec_mem_cases h
    · exact absurd hi (hind v)
    · exact absurd hi (hwr a v)
    · exact absurd hi (hpush v)
    · exact ht
  · obtain ⟨c, d, hi, -⟩ | ht := exec_ctx_cases h
    · exact absurd hi (hset c d)
    · exact ht
  · obtain ⟨hi, -⟩ | ht := exec_halted_cases h
    · exact absurd hi hset
    · exact ht
  · obtain ⟨n, hi, -⟩ | ht := exec_cycle_cases h
    · exact absurd hi (hadd n)
    · exact ht

/-! ## A call and its return (R112) -/

theorem performAll_getpc_push_setpc (s : State) (v target : Word) :
    performAll [.getpc, .push v, .setpc target] s =
      .next { s.pushWord v with pc := target, outbox := okReply 0 :: okReply 0 :: okReply s.pc :: s.outbox } := rfl

/-- POP then SETPC, the return of R112: SP rises by two and PC is the target. -/
theorem performAll_pop_setpc (s : State) (target : Word) :
    performAll [.pop, .setpc target] s =
      .next { s with sp := s.sp + 2, pc := target, outbox := okReply 0 :: okReply s.popWord.1 :: s.outbox } := by
  rw [← word_add_one_add_one]; rfl

/-- Settles O35: the return pops what the call pushed, the call having left memory and SP as PUSH does. -/
theorem callThenReturn : Obligations.CallThenReturn := by
  intro s target
  have hsp : s.sp - 1 - 1 + 2 = s.sp := by bv_omega
  have hpop : (s.pushWord s.pc).popWord.1 = s.pc := s.popWord_value_pushWord s.pc
  refine ⟨_, _, performAll_getpc_push_setpc s s.pc target, rfl, rfl, word_sub_one_sub_one s.sp, rfl,
    performAll_pop_setpc _ s.pc, ?_, rfl, hsp, rfl⟩
  exact congrArg (fun v => okReply 0 :: okReply v :: _) hpop

/-! ## One event (R51, R73): everything a step that goes on can be -/

theorem step_of_event {s : State} {e : Event} {rest : List Event} (hp : s.phase.isEnded = false) (hi : s.inbox = e :: rest) :
    step s = handleEvent Config.envParams e { s with inbox := rest } :=
  receive_of_event hp hi

/-- How the state `s`, without the event at hand, can go on to `t` over that event. -/
inductive EventStep (p : EnvParams) (s t : State) : Event → Prop where
  | performed {w : Cmd} {i : Instr} (hd : decode w = .ok i) (h : exec i s = .next t) : EventStep p s t (.command w)
  | badWord {w : Cmd} {c : Cause} (hd : decode w = .error c) (h : t = s.badCommand c) : EventStep p s t (.command w)
  | readDone {rv : Byte} (hs : s.svc = some .read) (h : t = ({ s with svc := none } : State).ok (zext16 rv)) :
      EventStep p s t (.portDoneRead rv)
  | writeDone (hs : s.svc = some .write) (h : t = ({ s with svc := none } : State).ok 0) : EventStep p s t .portDoneWrite
  | checks (hs : s.svc = none) (hp : s.phase = .running) (h : t = dispatchChecks p s) : EventStep p s t .instrDone
  | biosStop {a : Word} (hs : s.svc = none) (hp : s.phase = .bios a) (h : t = s.setPhase (.ended .programExit)) :
      EventStep p s t (.serviceDone .stop)
  | biosContinue {a : Word} (hs : s.svc = none) (hp : s.phase = .bios a) (h : t = s.setPhase .running) :
      EventStep p s t (.serviceDone .continue)
  | bdosStop (hs : s.svc = none) (hp : s.phase = .bdos) (h : t = s.setPhase (.ended .serviceStop)) :
      EventStep p s t (.serviceDone .stop)
  | bdosContinue (hs : s.svc = none) (hp : s.phase = .bdos) (h : t = s.simulatedReturn.setPhase .running) :
      EventStep p s t (.serviceDone .continue)

theorem handleEvent_cases {p : EnvParams} {e : Event} {s t : State} (h : handleEvent p e s = .next t) : EventStep p s t e := by
  cases e with
  | command w =>
    obtain ⟨i, hd, hw⟩ | ⟨c, hd, hw⟩ := receiveWord_cases w s
    · exact .performed hd (hw.symm.trans h)
    · exact .badWord hd (Host.Outcome.next.inj (h.symm.trans hw))
  | portDoneRead rv =>
    obtain ⟨hs, ht⟩ := portDoneRead_cases h
    exact .readDone hs ht
  | portDoneWrite =>
    obtain ⟨hs, ht⟩ := portDoneWrite_cases h
    exact .writeDone hs ht
  | instrDone =>
    obtain ⟨hs, hp, ht⟩ := instrDone_cases h
    exact .checks hs hp ht
  | serviceDone v =>
    obtain ⟨hs, ⟨a, hp, ⟨rfl, ht⟩ | ⟨rfl, ht⟩⟩ | ⟨hp, ⟨rfl, ht⟩ | ⟨rfl, ht⟩⟩⟩ := serviceDone_cases h
    · exact .biosStop hs hp ht
    · exact .biosContinue hs hp ht
    · exact .bdosStop hs hp ht
    · exact .bdosContinue hs hp ht

/-- A step that goes on is idle, with no event to come, or takes the next event; the run has not ended. -/
theorem step_cases {s t : State} (h : step s = .next t) :
    s.phase.isEnded = false ∧
      (t = s ∨ ∃ e rest, s.inbox = e :: rest ∧ EventStep Config.envParams { s with inbox := rest } t e) := by
  obtain ⟨hp, ⟨-, ht⟩ | ⟨e, rest, hi, he⟩⟩ := receive_cases h
  · exact ⟨hp, .inl ht⟩
  · exact ⟨hp, .inr ⟨e, rest, hi, handleEvent_cases he⟩⟩

/-! ## The dispatcher's checks in two lemmas (R135 to R140) -/

/-- Where the loop stands after the dispatcher has read PC: a trap, the runaway guard, or where it stood (R138 to R140). -/
def State.phaseAtPc (s : State) (p : EnvParams) : Phase :=
  if s.pc ∈ p.biosRegion then .bios s.pc
  else if s.pc = p.bdosEntry then .bdos
  else if s.pc = p.bdosEntry - 1 then .ended .runawayAbort
  else s.phase

theorem dispatchChecks_of_halted {s : State} (h : s.halted = true) (p : EnvParams) :
    dispatchChecks p s = { s with phase := .ended .haltAbort, outbox := okReply 1 :: s.outbox } := by
  simp only [dispatchChecks, haltedWord, if_pos h]; rfl

theorem dispatchChecks_of_not_halted {s : State} (h : s.halted = false) (p : EnvParams) :
    dispatchChecks p s = { s with phase := s.phaseAtPc p, outbox := okReply s.pc :: okReply 0 :: s.outbox } := by
  simp only [dispatchChecks, State.phaseAtPc, haltedWord, if_neg (Bool.eq_false_iff.mp h)]
  split_ifs <;> rfl

theorem word_eq_sub_one_iff (a b : Word) : a = b - 1 ↔ a + 1 = b :=
  eq_sub_iff_add_eq

theorem word_ne_of_add_one_eq {a b : Word} (h : a + 1 = b) : a ≠ b := by bv_omega

/-- Settles O51: the first test that passes decides, and an address one below the BDOS entry is not the entry. -/
theorem dispatcherChecksInOrder : Obligations.DispatcherChecksInOrder := by
  refine ⟨fun s rest hp hs hi => ?_, fun p s => ⟨fun hh => dispatchChecks_of_halted hh p, fun hh hbios => ?_,
    fun hh hbios hbdos => ?_, fun hh hbios hrun => ?_, fun hh hbios hbdos hrun => ?_⟩⟩
  · have he : s.phase.isEnded = false := by rw [hp]; rfl
    rw [step_of_event he hi]
    simp only [handleEvent, instrDone, hs, hp]
  all_goals rw [dispatchChecks_of_not_halted hh, State.phaseAtPc]
  · rw [if_pos hbios]
  · rw [if_neg hbios, if_pos hbdos]
  · rw [if_neg hbios, if_neg (word_ne_of_add_one_eq hrun), if_pos ((word_eq_sub_one_iff _ _).mpr hrun)]
  · rw [if_neg hbios, if_neg hbdos, if_neg (mt (word_eq_sub_one_iff _ _).mp hrun)]

/-! ## The ends of the service handlers (R138, R139) -/

theorem serviceDone_of_bios {s : State} {a : Word} (hs : s.svc = none) (hp : s.phase = .bios a) :
    serviceDone .stop s = .next (s.setPhase (.ended .programExit)) ∧ serviceDone .continue s = .next (s.setPhase .running) := by
  simp only [serviceDone, hs, hp, and_self]

theorem serviceDone_continue_of_bdos {s : State} (hs : s.svc = none) (hp : s.phase = .bdos) :
    serviceDone .continue s = .next (s.simulatedReturn.setPhase .running) := by
  simp only [serviceDone, hs, hp]

/-- Settles O53: the verdict moves the phase and nothing else. -/
theorem biosHandlerVerdict : Obligations.BiosHandlerVerdict := by
  intro s a rest hp hs
  have he : s.phase.isEnded = false := by rw [hp]; rfl
  obtain ⟨hstop, hcont⟩ := serviceDone_of_bios (s := { s with inbox := rest }) hs hp
  exact ⟨fun hi => (step_of_event he hi).trans hstop, fun hi => (step_of_event he hi).trans hcont⟩

/-- Settles O52: the simulated return is POP then SETPC of the popped word. -/
theorem bdosHandlerReturnsToCaller : Obligations.BdosHandlerReturnsToCaller := by
  intro s rest hp hs hi
  have he : s.phase.isEnded = false := by rw [hp]; rfl
  have hstep : step s = .next { s with
      inbox := rest, pc := s.popWord.1, sp := s.sp + 2, phase := .running
      outbox := okReply 0 :: okReply s.popWord.1 :: s.outbox } := by
    rw [step_of_event he hi, ← word_add_one_add_one]
    exact serviceDone_continue_of_bdos (s := { s with inbox := rest }) hs hp
  exact ⟨s.popWord.1, rfl, hstep, _, performAll_pop_setpc _ s.popWord.1, hstep⟩

/-! ## How a run ends (R144) -/

theorem State.phaseAtPc_eq_ended {s : State} {p : EnvParams} {e : RunEnd} (hs : s.phase = .running)
    (h : s.phaseAtPc p = .ended e) : e = .runawayAbort ∧ s.pc ∉ p.biosRegion ∧ s.pc + 1 = p.bdosEntry := by
  unfold State.phaseAtPc at h
  split_ifs at h with hbios hbdos hrun
  · exact ⟨(Phase.ended.inj h).symm, hbios, (word_eq_sub_one_iff _ _).mp hrun⟩
  · exact nomatch hs.symm.trans h

theorem dispatchChecks_phase_eq_ended {s : State} {p : EnvParams} {e : RunEnd} (hp : s.phase = .running)
    (h : (dispatchChecks p s).phase = .ended e) :
    (e = .haltAbort ∧ s.halted = true) ∨
    (e = .runawayAbort ∧ s.halted = false ∧ s.pc + 1 = p.bdosEntry ∧ s.pc ∉ p.biosRegion) := by
  cases hh : s.halted with
  | true =>
    rw [dispatchChecks_of_halted hh] at h
    exact .inl ⟨(Phase.ended.inj h).symm, rfl⟩
  | false =>
    rw [dispatchChecks_of_not_halted hh] at h
    obtain ⟨he, hbios, hpc⟩ := State.phaseAtPc_eq_ended hp h
    exact .inr ⟨he, rfl, hpc, hbios⟩

theorem step_of_ended {s : State} {e : RunEnd} (h : s.phase = .ended e) : step s = .fault (.runEnded e) := by
  simp only [step, receive, h]

/-- Settles O54: over the kinds of step, each of which leaves a phase of its own. -/
theorem runEndsOnlySo : Obligations.RunEndsOnlySo := by
  refine ⟨fun s t e hrun h ht => ?_, fun s e => step_of_ended⟩
  have hnot : s.phase ≠ .ended e := fun hp => by rw [hp] at hrun; cases hrun
  obtain ⟨-, rfl | ⟨ev, rest, hi, hev⟩⟩ := step_cases h
  · exact absurd ht hnot
  refine ⟨rest, ?_⟩
  cases hev with
  | performed _ hx => exact absurd ((exec_phase hx).symm.trans ht) hnot
  | badWord _ hx | readDone _ hx | writeDone _ hx => subst hx; exact absurd ht hnot
  | checks _ hp hx =>
    subst hx
    obtain ⟨he, hh⟩ | ⟨he, hh, hpc, hbios⟩ := dispatchChecks_phase_eq_ended hp ht
    · exact .inr (.inl ⟨he, hh, hi⟩)
    · exact .inr (.inr (.inl ⟨he, hh, hpc, hbios, hi⟩))
  | biosStop _ hp hx => subst hx; exact .inl ⟨(Phase.ended.inj ht).symm, ⟨_, hp⟩, hi⟩
  | bdosStop _ hp hx => subst hx; exact .inr (.inr (.inr ⟨(Phase.ended.inj ht).symm, hp, hi⟩))
  | biosContinue _ _ hx | bdosContinue _ _ hx => subst hx; cases ht

/-! ## The invariant (log 2, log 13) -/

theorem exec_keeps_wf {i : Instr} {s t : State} (hs : s.mem.wf = true) (h : exec i s = .next t) : t.mem.wf = true := by
  obtain ⟨a, v, -, ht⟩ | ⟨v, -, ht⟩ | ht := exec_mem_cases h
  · rw [ht]; exact State.wf_writeByte hs
  · rw [ht]; exact State.wf_pushWord hs
  · rw [ht]; exact hs

theorem State.Inv.of_not_ended {s : State} (hm : s.mem.wf = true) (hp : s.phase.isEnded = false) : s.Inv :=
  ⟨hm, fun he => nomatch hp.symm.trans he⟩

/-- An event leaves the run not ended or no window open, and the memory canonical. -/
theorem EventStep.inv {p : EnvParams} {s t : State} {e : Event} (h : EventStep p s t e) (hm : s.mem.wf = true)
    (hp : s.phase.isEnded = false) : t.Inv := by
  cases h with
  | performed _ hx => exact .of_not_ended (exec_keeps_wf hm hx) ((congrArg Phase.isEnded (exec_phase hx)).trans hp)
  | badWord _ hx | readDone _ hx | writeDone _ hx => subst hx; exact .of_not_ended hm hp
  | checks hs _ hx =>
    subst hx
    exact ⟨(congrArg Memory.wf (dispatchChecks_mem s p)).trans hm, fun _ => (dispatchChecks_svc s p).trans hs⟩
  | biosStop hs _ hx | biosContinue hs _ hx | bdosStop hs _ hx | bdosContinue hs _ hx => subst hx; exact ⟨hm, fun _ => hs⟩

/-- Settles O46: an idle step changes nothing, and every event keeps the invariant. -/
theorem everyStepKeepsInvariant : Obligations.EveryStepKeepsInvariant := by
  intro s t hs h
  obtain ⟨hp, rfl | ⟨e, rest, -, he⟩⟩ := step_cases h
  · exact hs
  · exact he.inv hs.1 hp

/-- Settles O47: the reset memory is canonical, and the run is running. -/
theorem invariantAtReset : Obligations.InvariantAtReset :=
  fun fill _ _ _ => .of_not_ended (Memory.wf_filled fill) rfl

/-! ## What a step adds to what was sent (R61, R131) -/

/-- From `s` to `t` a refusal was answered: one `ERR`, and the mark (log 5). -/
def AnswersErr (s t : State) : Prop := t.refused = true ∧ ∃ n, t.outbox = errReply n :: s.outbox

/-- From `s` to `t` nothing sent is an `ERR`, and the mark is as it was (log 5). -/
def SendsNoErr (s t : State) : Prop :=
  t.refused = s.refused ∧ ∃ new, t.outbox = new ++ s.outbox ∧ ∀ n, errReply n ∉ new

theorem exec_refused_of_not_busy {i : Instr} {s t : State} (hbusy : ¬ (IsPort i ∧ s.svc ≠ none)) (h : exec i s = .next t) :
    t.refused = s.refused := by
  by_cases hport : IsPort i
  · have hsvc : s.svc = none := not_not.mp (not_and.mp hbusy hport)
    obtain ⟨d, q, hx⟩ := exec_of_isPort hport
    rw [hx, State.openWindow_of_closed hsvc] at h
    cases h; rfl
  · cases i with
    | portrd p => exact absurd trivial hport
    | portwr p v => exact absurd trivial hport
    | set16 m v => cases h; exact s.writeR16_refused _ v
    | _ => cases h; rfl

/-- A command is refused exactly as a port command in an open window (R115). -/
theorem exec_answers {i : Instr} {s t : State} (h : exec i s = .next t) : AnswersErr s t ∨ SendsNoErr s t := by
  by_cases hbusy : IsPort i ∧ s.svc ≠ none
  · obtain ⟨hport, hsvc⟩ := hbusy
    obtain ⟨d, q, hx⟩ := exec_of_isPort hport
    rw [hx, State.openWindow_of_open hsvc] at h
    cases h
    exact .inl ⟨rfl, _, rfl⟩
  · obtain ⟨r, ho, hr⟩ := exec_outbox_of_not_busy hbusy h
    exact .inr ⟨exec_refused_of_not_busy hbusy h, [r], ho, fun n hn => hr n (List.mem_singleton.mp hn).symm⟩

theorem SendsNoErr.of_okReplies {s t : State} (vs : List Word) (hr : t.refused = s.refused)
    (ho : t.outbox = vs.map okReply ++ s.outbox) : SendsNoErr s t :=
  ⟨hr, vs.map okReply, ho, fun n => by simp [okReply, errReply]⟩

theorem dispatchChecks_sendsNoErr (p : EnvParams) (s : State) : SendsNoErr s (dispatchChecks p s) := by
  cases hh : s.halted with
  | true => exact .of_okReplies [1] (dispatchChecks_refused s p) (by rw [dispatchChecks_of_halted hh]; rfl)
  | false => exact .of_okReplies [s.pc, 0] (dispatchChecks_refused s p) (by rw [dispatchChecks_of_not_halted hh]; rfl)

theorem EventStep.answers {p : EnvParams} {s t : State} {e : Event} (h : EventStep p s t e) :
    AnswersErr s t ∨ SendsNoErr s t := by
  cases h with
  | performed _ hx => exact exec_answers hx
  | badWord _ hx => subst hx; exact .inl ⟨rfl, _, rfl⟩
  | readDone _ hx | writeDone _ hx => subst hx; exact .inr (.of_okReplies [_] rfl rfl)
  | checks _ _ hx => subst hx; exact .inr (dispatchChecks_sendsNoErr p s)
  | biosStop _ _ hx | biosContinue _ _ hx | bdosStop _ _ hx => subst hx; exact .inr (.of_okReplies [] rfl rfl)
  | bdosContinue _ _ hx => subst hx; exact .inr (.of_okReplies [0, _] rfl rfl)

theorem step_answers {s t : State} (h : step s = .next t) : AnswersErr s t ∨ SendsNoErr s t := by
  obtain ⟨-, rfl | ⟨e, rest, -, he⟩⟩ := step_cases h
  · exact .inr (.of_okReplies [] rfl rfl)
  · exact he.answers

/-- Settles O4: a step answers an `ERR` and sets the mark, or does neither. -/
theorem refusalMarkIsExact : Obligations.RefusalMarkIsExact := by
  intro s t h
  obtain ⟨hr, hn⟩ | ⟨hr, new, ho, hnew⟩ := step_answers h
  · exact ⟨fun _ => .inr hn, fun _ => hr⟩
  · rw [hr]
    refine ⟨.inl, ?_⟩
    rintro (hs | ⟨n, hn⟩)
    · exact hs
    · have hnew' : new = [errReply n] := List.append_cancel_right (ho.symm.trans hn)
      exact absurd (hnew' ▸ List.mem_singleton_self _) (hnew n)

theorem exec_cycle_le {i : Instr} {s t : State} (h : exec i s = .next t) : s.cycle ≤ t.cycle := by
  obtain ⟨n, -, ht⟩ | ht := exec_cycle_cases h
  · exact ht ▸ Nat.le_add_right _ _
  · exact ht.ge

/-- Only a performed command touches HALTED or CYCLE (R19, R20). -/
theorem EventStep.halted_cycle {p : EnvParams} {s t : State} {e : Event} (h : EventStep p s t e) :
    (s.halted = true → t.halted = true) ∧ s.cycle ≤ t.cycle := by
  cases h with
  | performed _ hx => exact ⟨(exec_keeps_halted · hx), exec_cycle_le hx⟩
  | checks _ _ hx => subst hx; exact ⟨(dispatchChecks_halted s p).trans, (dispatchChecks_cycle s p).ge⟩
  | badWord _ hx | readDone _ hx | writeDone _ hx => subst hx; exact ⟨id, le_rfl⟩
  | biosStop _ _ hx | biosContinue _ _ hx | bdosStop _ _ hx | bdosContinue _ _ hx => subst hx; exact ⟨id, le_rfl⟩

theorem step_halted_cycle {s t : State} (h : step s = .next t) : (s.halted = true → t.halted = true) ∧ s.cycle ≤ t.cycle := by
  obtain ⟨-, rfl | ⟨e, rest, -, he⟩⟩ := step_cases h
  · exact ⟨id, le_rfl⟩
  · exact he.halted_cycle

/-- Settles O48: the flag and the counter by the kinds of step, the mark and the outputs by what a step answers. -/
theorem haltedAndCycleNeverGoBack : Obligations.HaltedAndCycleNeverGoBack := by
  intro s t h
  obtain ⟨hhalt, hcyc⟩ := step_halted_cycle h
  obtain ⟨hr, n, ho⟩ | ⟨hr, new, ho, -⟩ := step_answers h
  · exact ⟨hhalt, hcyc, fun _ => hr, [errReply n], ho⟩
  · exact ⟨hhalt, hcyc, hr.trans, new, ho⟩

/-! ## One output for each command (R61, R130) -/

/-- Settles O44: a port command is an attempt to open the window, every other command responds. -/
theorem everyCommandIsAnswered : Obligations.EveryCommandIsAnswered := by
  intro i s
  by_cases hport : IsPort i
  · obtain ⟨d, q, hx⟩ := exec_of_isPort hport
    cases hs : s.svc with
    | none =>
      rw [hx, State.openWindow_of_closed hs]
      exact ⟨_, .portReq q, rfl, rfl, fun h => absurd hport h, fun _ _ => ⟨q, rfl⟩, fun _ h => absurd rfl h⟩
    | some e =>
      rw [hx, State.openWindow_of_open (by rw [hs]; nofun)]
      exact ⟨_, errReply 4, rfl, rfl, fun h => absurd hport h, fun _ => nofun, fun _ _ => rfl⟩
  · obtain ⟨t, ht⟩ := exec_next i s
    obtain ⟨data, ho⟩ := exec_outbox_of_not_isPort hport ht
    exact ⟨t, _, ht, ho, fun _ => ⟨data, rfl⟩, fun h => absurd h hport, fun h => absurd h hport⟩

/-- The data of a response is one word, but for GETCYC's. -/
theorem exec_response_word {i : Instr} {s t : State} (hport : ¬ IsPort i) (hcyc : i ≠ .getcyc) (h : exec i s = .next t) :
    ∃ v, t.outbox = okReply v :: s.outbox := by
  cases i with
  | portrd p => exact absurd trivial hport
  | portwr p v => exact absurd trivial hport
  | getcyc => exact absurd rfl hcyc
  | set16 m v => cases h; exact ⟨0, congrArg _ (s.writeR16_outbox _ v)⟩
  | _ => cases h; exact ⟨_, rfl⟩

/-! ## Completing a port access (R113, R114) -/

theorem step_of_portDoneRead {s : State} {rv : Byte} {rest : List Event} (hp : s.phase.isEnded = false)
    (hs : s.svc = some .read) (hi : s.inbox = .portDoneRead rv :: rest) :
    step s = .next { s with inbox := rest, svc := none, outbox := okReply (BitVec.ofNat 16 rv.toNat) :: s.outbox } := by
  rw [step_of_event hp hi, BitVec.ofNat_toNat]
  simp only [handleEvent, portDoneRead, hs]; rfl

theorem step_of_portDoneWrite {s : State} {rest : List Event} (hp : s.phase.isEnded = false) (hs : s.svc = some .write)
    (hi : s.inbox = .portDoneWrite :: rest) :
    step s = .next { s with inbox := rest, svc := none, outbox := okReply 0 :: s.outbox } := by
  rw [step_of_event hp hi]
  simp only [handleEvent, portDoneWrite, hs]; rfl

/-- Settles O1: the next event is the word, and an accepted word is performed. -/
theorem stepPerformsDecodedCommand : Obligations.StepPerformsDecodedCommand :=
  fun _ _ _ _ hp hi hd => (step_of_command hp hi).trans (receiveWord_of_ok hd _)

/-- Settles O36: the word is the encoding, the refusals are the row's and the open window's. -/
theorem portReadRule : Obligations.PortReadRule := by
  refine ⟨fun p => ?_, fieldRefusals .portrd, fun p s hs => ?_, fun p s hs => ?_, fun _ _ _ => step_of_portDoneRead⟩
  · exact decode_cmdWord (by simp [Instr.opcode, Opcode.code, Instr.bOperand, Instr.wOperand])
  · exact congrArg _ (State.openWindow_of_open hs _ _)
  · exact congrArg _ (State.openWindow_of_closed hs _ _)

/-- Settles O37: the word is the encoding, and its row has no field to refuse; a request is refused in an open window alone. -/
theorem portWriteRule : Obligations.PortWriteRule := by
  refine ⟨fun p v => ?_, fun p v s hs => ?_, fun p v s hs => ?_, fun _ _ => step_of_portDoneWrite⟩
  · exact decode_cmdWord (by simp [Instr.opcode, Opcode.code, Instr.bOperand, Instr.wOperand])
  · exact congrArg _ (State.openWindow_of_open hs _ _)
  · exact congrArg _ (State.openWindow_of_closed hs _ _)

/-- Settles O59: a refused word is answered with its cause; a performed command answers `OK`, as a completion does. -/
theorem responseRule : Obligations.ResponseRule := by
  refine ⟨fun s w rest hp hi => ⟨fun c hc => ?_, fun i hd hport => ?_⟩, fun s rest hp => ⟨fun rv hs hi => ?_, fun hs hi => ?_⟩⟩
  · obtain ⟨t, ht, hblock, ho, -, -⟩ := refusedWordChangesNothing s w rest c hp hi hc
    exact ⟨t, _, ht, ho, rfl, rfl, hblock⟩
  · obtain ⟨t, hx⟩ := exec_next i { s with inbox := rest }
    have hstep : step s = .next t := (stepPerformsDecodedCommand s w rest i hp hi hd).trans hx
    by_cases hcyc : i = .getcyc
    · subst hcyc
      rw [exec_getcyc] at hx
      cases hx
      exact ⟨_, _, hstep, rfl, rfl, fun _ => rfl, fun h => absurd rfl h⟩
    · obtain ⟨v, ho⟩ := exec_response_word hport hcyc hx
      exact ⟨t, _, hstep, ho, rfl, fun h => absurd h hcyc, fun _ => ⟨v, rfl⟩⟩
  · exact ⟨_, _, step_of_portDoneRead hp hs hi, rfl, rfl, rfl⟩
  · exact ⟨_, _, step_of_portDoneWrite hp hs hi, rfl, rfl, rfl⟩

/-! ## Inside the service window (R115, R116) -/

theorem State.writeR16_setSvc (s : State) (d : Option PortDir) (m : Reg16) (v : Word) :
    ({ s with svc := d } : State).writeR16 m v = { s.writeR16 m v with svc := d } := by
  cases m <;> rfl

/-- A command that is no port command neither sees nor touches the window. -/
theorem exec_setSvc {i : Instr} {s t : State} (hport : ¬ IsPort i) (h : exec i s = .next t) (d : Option PortDir) :
    exec i { s with svc := d } = .next { t with svc := d } := by
  cases i with
  | portrd p => exact absurd trivial hport
  | portwr p v => exact absurd trivial hport
  | set16 m v => cases h; exact congrArg (fun u => Host.Outcome.next (u.ok 0)) (s.writeR16_setSvc d _ v)
  | _ => cases h; rfl

/-- Settles O38: a command other than a port command does not see the window, and a port command finds it open. -/
theorem serviceWindowRule : Obligations.ServiceWindowRule := by
  refine fun i s d => ⟨fun hport t h => exec_setSvc hport h (some d), fun hport => ?_⟩
  obtain ⟨e, q, hx⟩ := exec_of_isPort hport
  have hopen : ({ s with svc := some d } : State).svc ≠ none := Option.some_ne_none d
  rw [hx, State.openWindow_of_open hopen]; rfl

/-- What a handler's words leave as it was, and how far HALTED and CYCLE can move (R116). -/
structure HandlerFrame (s t : State) : Prop where
  svc : t.svc = s.svc
  halted : s.halted = true → t.halted = true
  cycle : s.cycle ≤ t.cycle
  inbox : t.inbox = s.inbox
  phase : t.phase = s.phase

theorem HandlerFrame.refl (s : State) : HandlerFrame s s := ⟨rfl, id, le_rfl, rfl, rfl⟩

theorem HandlerFrame.trans {s t u : State} (h : HandlerFrame s t) (h' : HandlerFrame t u) : HandlerFrame s u :=
  ⟨h'.svc.trans h.svc, h'.halted ∘ h.halted, h.cycle.trans h'.cycle, h'.inbox.trans h.inbox, h'.phase.trans h.phase⟩

theorem State.handlerFrame_badCommand (s : State) (c : Cause) : HandlerFrame s (s.badCommand c) :=
  ⟨rfl, id, le_rfl, rfl, rfl⟩

/-- A word in an open window is answered by one response, and the window stays as it is. -/
theorem receiveWord_of_open {s : State} (hs : s.svc ≠ none) (w : Cmd) :
    ∃ t r, receiveWord w s = .next t ∧ HandlerFrame s t ∧ t.outbox = .response r :: s.outbox := by
  obtain ⟨i, hd, hw⟩ | ⟨c, hd, hw⟩ := receiveWord_cases w s
  · by_cases hport : IsPort i
    · exact ⟨_, _, receiveWord_of_refuses (.inr ⟨rfl, hs, i, hd, hport⟩), s.handlerFrame_badCommand _, rfl⟩
    · obtain ⟨t, ht⟩ := exec_next i s
      obtain ⟨data, ho⟩ := exec_outbox_of_not_isPort hport ht
      exact ⟨t, _, hw.trans ht, ⟨exec_svc_of_not_isPort hport ht, (exec_keeps_halted · ht), exec_cycle_le ht, exec_inbox ht,
        exec_phase ht⟩, ho⟩
  · exact ⟨_, _, hw, s.handlerFrame_badCommand c, rfl⟩

theorem receiveWords_cons {w : Cmd} {s t : State} (ws : List Cmd) (h : receiveWord w s = .next t) :
    receiveWords (w :: ws) s = receiveWords ws t := by
  simp only [receiveWords, h]

theorem receiveWords_of_open (ws : List Cmd) (s : State) (hs : s.svc ≠ none) :
    ∃ t, receiveWords ws s = .next t ∧ HandlerFrame s t ∧
      ∃ rs : List Response, rs.length = ws.length ∧ t.outbox = rs.map Output.response ++ s.outbox := by
  induction ws generalizing s with
  | nil => exact ⟨s, rfl, .refl s, [], rfl, rfl⟩
  | cons w ws ih =>
    obtain ⟨u, r, hu, hsu, hor⟩ := receiveWord_of_open hs w
    obtain ⟨t, ht, hut, rs, hlen, ho⟩ := ih u (hsu.svc ▸ hs)
    refine ⟨t, (receiveWords_cons ws hu).trans ht, hsu.trans hut, rs ++ [r], ?_, ?_⟩
    · rw [List.length_append, hlen]; rfl
    · rw [ho, hor, List.map_append, List.append_assoc]; rfl

/-- Settles O40: by induction on the words, each of which finds the window open. -/
theorem handlerPowers : Obligations.HandlerPowers := by
  intro ws s d hs
  obtain ⟨t, ht, hf, rs, hlen, ho⟩ := receiveWords_of_open ws s (by rw [hs]; nofun)
  exact ⟨t, ht, hf.svc.trans hs, hf.halted, hf.cycle, rs, hlen, ho⟩

/-! ## Words waiting in the inbox, run by the machine's own steps (R51) -/

theorem State.writeR16_setInbox (s : State) (q : List Event) (m : Reg16) (v : Word) :
    ({ s with inbox := q } : State).writeR16 m v = { s.writeR16 m v with inbox := q } := by
  cases m <;> rfl

theorem State.openWindow_setInbox (s : State) (q : List Event) (d : PortDir) (r : PortReq) :
    ({ s with inbox := q } : State).openWindow d r = { s.openWindow d r with inbox := q } := by
  unfold State.openWindow
  dsimp only
  split <;> rfl

/-- No command sees what is still to come. -/
theorem exec_setInbox {i : Instr} {s t : State} (h : exec i s = .next t) (q : List Event) :
    exec i { s with inbox := q } = .next { t with inbox := q } := by
  cases i with
  | set16 m v => cases h; exact congrArg (fun u => Host.Outcome.next (u.ok 0)) (s.writeR16_setInbox q _ v)
  | portrd p => cases h; exact congrArg _ (s.openWindow_setInbox q _ _)
  | portwr p v => cases h; exact congrArg _ (s.openWindow_setInbox q _ _)
  | _ => cases h; rfl

theorem receiveWord_setInbox {w : Cmd} {s t : State} (h : receiveWord w s = .next t) (q : List Event) :
    receiveWord w { s with inbox := q } = .next { t with inbox := q } := by
  obtain ⟨i, hd, hw⟩ | ⟨c, hd, hw⟩ := receiveWord_cases w s
  · exact (receiveWord_of_ok hd _).trans (exec_setInbox (hw.symm.trans h) q)
  · cases hw.symm.trans h
    exact receiveWord_of_error hd _

theorem receiveWord_phase {w : Cmd} {s t : State} (h : receiveWord w s = .next t) : t.phase = s.phase := by
  obtain ⟨i, hd, hw⟩ | ⟨c, hd, hw⟩ := receiveWord_cases w s
  · exact exec_phase (hw.symm.trans h)
  · cases hw.symm.trans h; rfl

theorem run_of_step {s t : State} (h : step s = .next t) (k : Nat) : Host.Core.run core (k + 1) s = Host.Core.run core k t := by
  have hcore : core.step s = .next t := h
  simp only [Host.Core.run, hcore]

theorem receiveWords_cons_inv {w : Cmd} {ws : List Cmd} {s t : State} (h : receiveWords (w :: ws) s = .next t) :
    ∃ u, receiveWord w s = .next u ∧ receiveWords ws u = .next t := by
  cases hw : receiveWord w s with
  | next u => exact ⟨u, rfl, (receiveWords_cons ws hw).symm.trans h⟩
  | fault r => simp [receiveWords, hw] at h
  | refused r => simp [receiveWords, hw] at h

/-- Words at the head of the inbox are performed by as many steps, and what follows them stays to come. -/
theorem run_words {ws : List Cmd} {s t : State} (hp : s.phase.isEnded = false) (h : receiveWords ws s = .next t)
    (q : List Event) (k : Nat) :
    Host.Core.run core (ws.length + k) { s with inbox := ws.map Event.command ++ q } =
      Host.Core.run core k { t with inbox := q } := by
  induction ws generalizing s with
  | nil => cases h; rw [List.length_nil, Nat.zero_add]; rfl
  | cons w ws ih =>
    obtain ⟨u, hu, ht⟩ := receiveWords_cons_inv h
    have hstep : step { s with inbox := (w :: ws).map Event.command ++ q } =
        .next { u with inbox := ws.map Event.command ++ q } :=
      (step_of_command (s := { s with inbox := (w :: ws).map Event.command ++ q }) hp rfl).trans (receiveWord_setInbox hu _)
    rw [List.length_cons, Nat.add_right_comm, run_of_step hstep]
    exact ih ((congrArg Phase.isEnded (receiveWord_phase hu)).trans hp) ht

/-- A port command's word, its handler's words and the completion, run by the machine: the one argument for both directions. -/
theorem run_portAccess {s : State} {i : Instr} {d : PortDir} {req : PortReq} {e : Event} {v : Word} {rest : List Event}
    (ws : List Cmd) (hp : s.phase.isEnded = false) (hs : s.svc = none)
    (hreq : ∀ u : State, exec i u = .next (u.openWindow d req))
    (hdone : ∀ u : State, u.phase.isEnded = false → u.svc = some d → u.inbox = e :: rest →
      step u = .next { u with inbox := rest, svc := none, outbox := okReply v :: u.outbox })
    (hi : s.inbox = .command (encode i) :: (ws.map Event.command ++ e :: rest)) :
    ∃ u, receiveWords ws { s with inbox := rest, svc := some d, outbox := .portReq req :: s.outbox } = .next u ∧
      u.svc = some d ∧
      Host.Core.run core (ws.length + 2) s = .next { u with svc := none, outbox := okReply v :: u.outbox } := by
  obtain ⟨u, hu, hf, -⟩ :=
    receiveWords_of_open ws { s with inbox := rest, svc := some d, outbox := .portReq req :: s.outbox } nofun
  refine ⟨u, hu, hf.svc, ?_⟩
  have hword : receiveWord (encode i) { s with inbox := rest } =
      .next { s with inbox := rest, svc := some d, outbox := .portReq req :: s.outbox } := by
    rw [receiveWord_of_ok (decode_encode i), hreq, State.openWindow_of_closed (s := { s with inbox := rest }) hs]
  have hall : receiveWords (encode i :: ws) { s with inbox := rest } = .next u := (receiveWords_cons ws hword).trans hu
  have hstep : step { u with inbox := e :: rest } = .next { u with svc := none, outbox := okReply v :: u.outbox } := by
    have hpu : u.phase.isEnded = false := (congrArg Phase.isEnded hf.phase).trans hp
    have hiu : u.inbox = rest := hf.inbox
    rw [hdone { u with inbox := e :: rest } hpu hf.svc rfl, ← hiu]
  calc Host.Core.run core (ws.length + 2) s
      = Host.Core.run core ((encode i :: ws).length + 1)
          { s with inbox := (encode i :: ws).map Event.command ++ e :: rest } := by
        rw [show (encode i :: ws).map Event.command ++ e :: rest = s.inbox from hi.symm]; rfl
    _ = Host.Core.run core 1 { u with inbox := e :: rest } := run_words (s := { s with inbox := rest }) hp hall _ 1
    _ = .next { u with svc := none, outbox := okReply v :: u.outbox } := run_of_step hstep 0

/-- Settles O39: the request opens the window, the handler's words leave it open, and the completion of its direction closes it. -/
theorem portTransaction : Obligations.PortTransaction :=
  fun _ ws _ hp hs => ⟨fun _ _ => run_portAccess ws hp hs (fun _ => rfl) (fun _ => step_of_portDoneRead),
    fun _ _ => run_portAccess ws hp hs (fun _ => rfl) (fun _ => step_of_portDoneWrite)⟩

/-! ## The loader (R162 to R167) -/

theorem performAll_next (is : List Instr) (s : State) : ∃ t, performAll is s = .next t ∧ t.inbox = s.inbox := by
  induction is generalizing s with
  | nil => exact ⟨s, rfl, rfl⟩
  | cons i is ih =>
    obtain ⟨u, hu⟩ := exec_next i s
    obtain ⟨t, ht, hinbox⟩ := ih u
    exact ⟨t, (performAll_cons is hu).trans ht, hinbox.trans (exec_inbox hu)⟩

/-- Performing commands is receiving their words. -/
theorem receiveWords_map_encode (is : List Instr) (s : State) : receiveWords (is.map encode) s = performAll is s := by
  induction is generalizing s with
  | nil => rfl
  | cons i is ih =>
    obtain ⟨u, hu⟩ := exec_next i s
    rw [List.map_cons, receiveWords_cons _ ((receiveWord_of_ok (decode_encode i) s).trans hu), ih, performAll_cons is hu]

/-- Settles O58: the loader's words wait at the head of the inbox, and what they lead to has the inbox that followed them. -/
theorem loaderRunsOnTheMachine : Obligations.LoaderRunsOnTheMachine := by
  intro p q s hp
  obtain ⟨t, ht, hinbox⟩ := performAll_next (loaderCommands p q) s
  have hw : receiveWords ((loaderCommands p q).map encode) s = .next t := (receiveWords_map_encode _ s).trans ht
  have hrun := run_words hp hw s.inbox 0
  rw [List.length_map, List.map_map] at hrun
  rw [ht]
  exact hrun.trans (by rw [← hinbox]; rfl)

/-- The bytes of memory after parameter marshalling, over a memory that read as `f`. -/
def marshalled (p : EnvParams) (q : LoadRequest) (f : Word → Byte) : Word → Byte :=
  match q.tail with
  | none => f
  | some tail => overlay p.fcb2 q.fcb2Bytes (overlay p.fcb1 q.fcb1Bytes (overlay p.paramBuf (parameterBytes tail) f))

theorem length_parameterBytes_le (tail : List Byte) : (parameterBytes tail).length ≤ 65536 := by
  simp only [parameterBytes, List.length_cons, List.length_take]; omega

theorem marshalCommands_of_tail {p : EnvParams} {q : LoadRequest} {tail : List Byte} (h : q.tail = some tail) :
    marshalCommands p q =
      writeBytes p.paramBuf (parameterBytes tail) ++ writeBytes p.fcb1 q.fcb1Bytes ++ writeBytes p.fcb2 q.fcb2Bytes := by
  simp only [marshalCommands, h]; rfl

theorem marshalCommands_of_no_tail {p : EnvParams} {q : LoadRequest} (h : q.tail = none) : marshalCommands p q = [] := by
  simp only [marshalCommands, h]

/-- Parameter marshalling goes on, changes nothing but memory and the responses, and writes what `marshalled` says (R164). -/
theorem performAll_marshalCommands (p : EnvParams) (q : LoadRequest) (s : State) :
    ∃ t, performAll (marshalCommands p q) s = .next t ∧ t = { s with mem := t.mem, outbox := t.outbox } ∧
      (q.fcb1Bytes.length ≤ 65536 → q.fcb2Bytes.length ≤ 65536 → t.readByte = marshalled p q s.readByte) := by
  cases hq : q.tail with
  | none =>
    rw [marshalCommands_of_no_tail hq]
    exact ⟨s, rfl, rfl, fun _ _ => by simp only [marshalled, hq]⟩
  | some tail =>
    obtain ⟨s₁, h₁, hf₁, hr₁⟩ := performAll_writeBytes (parameterBytes tail) p.paramBuf s
    obtain ⟨s₂, h₂, hf₂, hr₂⟩ := performAll_writeBytes q.fcb1Bytes p.fcb1 s₁
    obtain ⟨s₃, h₃, hf₃, hr₃⟩ := performAll_writeBytes q.fcb2Bytes p.fcb2 s₂
    refine ⟨s₃, ?_, ?_, fun hl₁ hl₂ => ?_⟩
    · rw [marshalCommands_of_tail hq, List.append_assoc, performAll_append _ h₁, performAll_append _ h₂, h₃]
    · rw [hf₃, hf₂, hf₁]
    · simp only [marshalled, hq]
      rw [funext (hr₃ hl₂), funext (hr₂ hl₁), funext (hr₁ (length_parameterBytes_le tail))]

/-- The first byte of the parameter buffer is the count, capped at 126 (R164). -/
theorem overlay_parameterBytes_count (base : Word) (tail : List Byte) (f : Word → Byte) :
    (overlay base (parameterBytes tail) f base).toNat = min tail.length 126 := by
  have h0 : (base - base).toNat = 0 := by rw [BitVec.sub_self]; rfl
  have hlt : min tail.length 126 < 2 ^ 8 := by omega
  rw [overlay, h0, parameterBytes, List.getElem?_cons_zero, Option.getD_some, BitVec.toNat_ofNat, Nat.mod_eq_of_lt hlt]

/-- Character `i` stands one above the count, then `i` further (R164). -/
theorem overlay_parameterBytes_char (base : Word) {tail : List Byte} (f : Word → Byte) {i : Nat} {c : Byte} (hi : i < 126)
    (hc : tail[i]? = some c) : overlay base (parameterBytes tail) f (base + 1 + BitVec.ofNat 16 i) = c := by
  have h : (base + 1 + BitVec.ofNat 16 i - base).toNat = i + 1 := by
    have : base + 1 + BitVec.ofNat 16 i - base = BitVec.ofNat 16 (i + 1) := by bv_omega
    rw [this, BitVec.toNat_ofNat]; omega
  rw [overlay, h, parameterBytes, List.getElem?_cons_succ, List.getElem?_take_of_lt hi, hc, Option.getD_some]

/-- Settles O60: the three runs of writes are three overlays, and outside the file control blocks the first shows. -/
theorem parametersAreMarshalled : Obligations.ParametersAreMarshalled := by
  refine fun p q s => ⟨marshalCommands_of_no_tail, fun tail hq => ?_⟩
  obtain ⟨t, ht, hf, hr⟩ := performAll_marshalCommands p q s
  refine ⟨t, ht, hf, fun hl₁ hl₂ => ?_⟩
  have hbytes (a : Word) : t.readByte a =
      overlay p.fcb2 q.fcb2Bytes (overlay p.fcb1 q.fcb1Bytes (overlay p.paramBuf (parameterBytes tail) s.readByte)) a := by
    rw [hr hl₁ hl₂]; simp only [marshalled, hq]
  refine ⟨hbytes, fun a h₁ h₂ => ?_⟩
  have hbuf : t.readByte a = overlay p.paramBuf (parameterBytes tail) s.readByte a := by
    rw [hbytes, overlay_of_le h₂, overlay_of_le h₁]
  rw [hbuf]
  exact ⟨fun ha => ha ▸ overlay_parameterBytes_count _ _ _, fun i c hi hc ha => ha ▸ overlay_parameterBytes_char _ _ hi hc⟩

theorem overlay_two (base : Word) (v w : Byte) (f : Word → Byte) (a : Word) :
    overlay base [v, w] f a = if a = base + 1 then w else if a = base then v else f a := by
  rw [overlay_cons _ _ _ _ (by simp), overlay_cons _ _ _ _ (by simp), overlay_nil]

/-- The sentinel is an overlay of two zero bytes. -/
theorem SentinelStack.readByte_eq_overlay {p : EnvParams} {s t : State} (h : SentinelStack p s t) :
    t.readByte = overlay p.tpaStack [0, 0] s.readByte := by
  funext a
  rw [h.bytes, overlay_two]
  simp only [or_comm (a := a = p.tpaStack), ite_or]

/-- Stack preparation where it is made, and nothing where it is not (R165). -/
theorem performAll_stackPrep (p : EnvParams) (b : Bool) (s : State) :
    ∃ t, performAll (if b then stackPrepCommands p else []) s = .next t ∧
      t = { s with sp := if b then p.tpaStack else s.sp, mem := t.mem, outbox := t.outbox } ∧
      (b = true → t.readByte p.tpaStack = 0 ∧ t.readByte (p.tpaStack + 1) = 0) ∧
      ∀ a, t.readByte a = if b then overlay p.tpaStack [0, 0] s.readByte a else s.readByte a := by
  cases b with
  | false => exact ⟨s, rfl, rfl, nofun, fun _ => rfl⟩
  | true =>
    obtain ⟨t, ht, htp⟩ := stackPrepCommands_effect p s
    exact ⟨t, ht, htp.frame, fun _ => ⟨(htp.bytes _).trans (if_pos (.inl rfl)), (htp.bytes _).trans (if_pos (.inr rfl))⟩,
      congrFun htp.readByte_eq_overlay⟩

/-- Settles O57: the loader's four parts one after the other, each an overlay of the memory before it; the last sets PC. -/
theorem stateAtFirstGuestInstruction : Obligations.StateAtFirstGuestInstruction := by
  intro p q s
  obtain ⟨s₁, h₁, hf₁, hr₁⟩ := performAll_writeBytes (loadedBytes p q.mode) (loadAddress p q.mode) s
  obtain ⟨s₂, h₂, hf₂, hr₂⟩ := performAll_marshalCommands p q s₁
  obtain ⟨s₃, h₃, hf₃, hz₃, hr₃⟩ := performAll_stackPrep p (stackPrepared p q.mode) s₂
  refine ⟨{ s₃ with pc := loadAddress p q.mode, outbox := okReply 0 :: s₃.outbox }, ?_, ?_, hz₃, ?_⟩
  · rw [loaderCommands, List.append_assoc, List.append_assoc, performAll_append _ h₁, performAll_append _ h₂,
      performAll_append _ h₃, performAll_cons _ (exec_setpc _ _)]; rfl
  · rw [hf₃, hf₂, hf₁]
  · intro hl hl₁ hl₂ image params a
    have himage : s₁.readByte = image := funext (hr₁ hl)
    have hparams : s₂.readByte = params := by rw [hr₂ hl₁ hl₂, himage]; rfl
    rw [← hparams]
    exact hr₃ a

end Sys2Proof.Machine
end
